-- ==== Sys2Proof/Word.lean ====
section
/-! DEFINITION. The machine's one word type: a byte. -/

namespace Sys2Proof

/-- A memory cell, a register and an instruction byte are each "unsigned 8-bit" (10_state.md R20, 20_memory.md R50).
Arithmetic on it wraps mod 256 (10_state.md R22). -/
abbrev Byte := BitVec 8

end Sys2Proof
end

