-- ==== Sys2Proof/Config.lean ====
section
/-! DEFINITION. What one implementation fixes: the open parameters of 00_scope.md R6. -/

namespace Sys2Proof

/-- The names of the twelve instructions (00_scope.md R2), the values of the Instruction Dispatch Table (30_encoding.md R80). -/
inductive Mnemonic where
  | halt
  | ret
  | push
  | pop
  | printReg
  | call
  | jump
  | jumpIfEqual
  | jumpIfNotEqual
  | loadImmediate
  | multiply
  | compare
  deriving DecidableEq, Repr

/-- The parameter OPCODE (00_scope.md R6, 30_encoding.md R81): the opcode byte of each instruction, that is the keys of
the Instruction Dispatch Table. Its default is `OpcodeMap.ls8` (30_encoding.md R80) and its constraint
`OpcodeMap.Admissible` (R81), both in Decode.lean. -/
structure OpcodeMap where
  halt           : Byte
  ret            : Byte
  push           : Byte
  pop            : Byte
  printReg       : Byte
  call           : Byte
  jump           : Byte
  jumpIfEqual    : Byte
  jumpIfNotEqual : Byte
  loadImmediate  : Byte
  multiply       : Byte
  compare        : Byte
  deriving DecidableEq, Repr

/-- The configuration `(DISPATCH, STRICT_STACK, SP_TOP, REG_INIT)` of 10_state.md R42: fixed for one machine, changed by no
step. It is plain data so that a statement about every state covers every value of it (log 2). -/
structure Config where
  /-- DISPATCH, given by its keys (OPCODE). -/
  opcodes     : OpcodeMap
  /-- STRICT_STACK: whether stack overflow and underflow fault (42_stack.md R173). -/
  strictStack : Bool
  /-- SP_TOP: the empty-stack value the strict underflow check uses (42_stack.md R173). -/
  spTop       : Byte
  /-- REG_INIT: the values `run()` gives R0..R6 (10_state.md R34). -/
  regInit     : Vector Byte 7
  deriving DecidableEq, Repr

/-- The defaults of 00_scope.md R6 around a given dispatch table: STRICT_STACK false, SP_TOP 244.
DESIGN CHOICE, unsafe (log 1): the spec states no default for REG_INIT; zero is the model's. -/
def Config.launchDefaults (opcodes : OpcodeMap) : Config :=
  { opcodes := opcodes, strictStack := false, spTop := 244, regInit := #v[0, 0, 0, 0, 0, 0, 0] }

/-- The parameter EXIT_CODE (60_exceptions.md R272, 92_eei_decisions.md D10), by fault code number: an open value with no
body. It is an index into the exit codes the rule admits (all but 0 and 2); `exitCodeOf` in Machine/Observe.lean reads
it. DESIGN CHOICE, safe (log 5). -/
opaque Config.exitCodeIndex : Nat → Nat

end Sys2Proof
end

