-- ==== Sys2Proof/Syntax.lean ====
section
/-! DEFINITION. The instruction set as syntax: one constructor per row of spec/opcode_table.json. -/

namespace Sys2Proof

/-- The twelve instructions (00_scope.md R2). An operand is the whole byte that follows the opcode (30_encoding.md R70,
R75, R76), so an instruction whose register index is 8 or more is a term too: `Instr.wellFormed` says which are legal. -/
inductive Instr where
  /-- PRINT_REG a (40_register_io_halt.md R110). -/
  | printReg (a : Byte)
  /-- LOAD_IMMEDIATE a, imm (40_register_io_halt.md R112). -/
  | loadImmediate (a imm : Byte)
  /-- HALT (40_register_io_halt.md R113). -/
  | halt
  /-- MULTIPLY a, b (41_alu.md R144). -/
  | multiply (a b : Byte)
  /-- PUSH a (42_stack.md R171). -/
  | push (a : Byte)
  /-- POP a (42_stack.md R172). -/
  | pop (a : Byte)
  /-- CALL a (43_control_transfer.md R201). -/
  | call (a : Byte)
  /-- RETURN (43_control_transfer.md R202). -/
  | ret
  /-- COMPARE a, b (41_alu.md R145). -/
  | compare (a b : Byte)
  /-- JUMP a (43_control_transfer.md R203). -/
  | jump (a : Byte)
  /-- JUMP_IF_EQUAL a (43_control_transfer.md R204). -/
  | jumpIfEqual (a : Byte)
  /-- JUMP_IF_NOT_EQUAL a (43_control_transfer.md R205). -/
  | jumpIfNotEqual (a : Byte)
  deriving DecidableEq, Repr

end Sys2Proof
end

