-- ==== Sys2Proof/Decode.lean ====
section
/-! DEFINITION. instruction_dispatch_decoder (30_encoding.md): opcode bit fields, the dispatch table, a decoder total on
any bytes, the encoder, the table's assembler names, and the host's view of one table word. -/

namespace Sys2Proof

/-! ### Opcode bit fields (30_encoding.md R71, R72) -/

/-- AA = `op[7:6]`, the number of operand bytes. -/
def operandCount (op : Byte) : Nat := (op.extractLsb' 6 2).toNat

/-- `size(op) = op[7:6] + 1`, by bit mask on the opcode alone (R72). -/
def instrSize (op : Byte) : Nat := operandCount op + 1

/-- `P(op) = op[4]`: "sets PC directly" (R72). -/
def setsPcDirectly (op : Byte) : Bool := op.getLsbD 4

/-! ### The Instruction Dispatch Table (30_encoding.md R80, R81) -/

/-- The twelve keys' instructions, in the order of the table of R80. -/
def Mnemonic.all : List Mnemonic :=
  [.halt, .ret, .push, .pop, .printReg, .call, .jump, .jumpIfEqual, .jumpIfNotEqual, .loadImmediate, .multiply, .compare]

/-- The instruction's operand count in the handler table (R81 (a); the formats N, R, RR, RI of R74). -/
def Mnemonic.arity : Mnemonic → Nat
  | .halt | .ret => 0
  | .push | .pop | .printReg | .call | .jump | .jumpIfEqual | .jumpIfNotEqual => 1
  | .loadImmediate | .multiply | .compare => 2

/-- The five instructions the source marks "Sets PC directly" (R81 (b)). -/
def Mnemonic.setsPc : Mnemonic → Bool
  | .call | .ret | .jump | .jumpIfEqual | .jumpIfNotEqual => true
  | .halt | .push | .pop | .printReg | .loadImmediate | .multiply | .compare => false

/-- The opcode byte a map gives an instruction. -/
def OpcodeMap.byteOf (t : OpcodeMap) : Mnemonic → Byte
  | .halt => t.halt
  | .ret => t.ret
  | .push => t.push
  | .pop => t.pop
  | .printReg => t.printReg
  | .call => t.call
  | .jump => t.jump
  | .jumpIfEqual => t.jumpIfEqual
  | .jumpIfNotEqual => t.jumpIfNotEqual
  | .loadImmediate => t.loadImmediate
  | .multiply => t.multiply
  | .compare => t.compare

/-- The default opcode values, those of R80 (92_eei_decisions.md D2, 93_implementation_defined.md K2).
PRESUMED by the spec, log 3. -/
def OpcodeMap.ls8 : OpcodeMap :=
  { halt := 0x01, ret := 0x11, push := 0x45, pop := 0x46, printReg := 0x47, call := 0x50, jump := 0x54,
    jumpIfEqual := 0x55, jumpIfNotEqual := 0x56, loadImmediate := 0x82, multiply := 0xA2, compare := 0xA7 }

/-- The constraint every opcode assignment must meet (R81): (a) `op[7:6]` is the operand count, (b) `op[4]` marks exactly
the instructions that set the PC, (c) the values are distinct. -/
abbrev OpcodeMap.Admissible (t : OpcodeMap) : Prop :=
  (∀ m ∈ Mnemonic.all, operandCount (t.byteOf m) = m.arity) ∧
  (∀ m ∈ Mnemonic.all, setsPcDirectly (t.byteOf m) = m.setsPc) ∧
  (∀ m ∈ Mnemonic.all, ∀ n ∈ Mnemonic.all, t.byteOf m = t.byteOf n → m = n)

/-- Lookup "by exact key" on the whole opcode byte (R77, R78): `none` is "not registered" (R79). -/
def OpcodeMap.lookup (t : OpcodeMap) (op : Byte) : Option Mnemonic :=
  Mnemonic.all.find? fun m => t.byteOf m == op

/-! ### Instructions and their parts -/

/-- The dispatch-table entry of an instruction. -/
def Instr.mnemonic : Instr → Mnemonic
  | .printReg _ => .printReg
  | .loadImmediate _ _ => .loadImmediate
  | .halt => .halt
  | .multiply _ _ => .multiply
  | .push _ => .push
  | .pop _ => .pop
  | .call _ => .call
  | .ret => .ret
  | .compare _ _ => .compare
  | .jump _ => .jump
  | .jumpIfEqual _ => .jumpIfEqual
  | .jumpIfNotEqual _ => .jumpIfNotEqual

/-- The operand bytes in address order: first operand, second operand (R74, 20_memory.md R55). -/
def Instr.operands : Instr → List Byte
  | .printReg a => [a]
  | .loadImmediate a imm => [a, imm]
  | .halt => []
  | .multiply a b => [a, b]
  | .push a => [a]
  | .pop a => [a]
  | .call a => [a]
  | .ret => []
  | .compare a b => [a, b]
  | .jump a => [a]
  | .jumpIfEqual a => [a]
  | .jumpIfNotEqual a => [a]

/-- Why bytes are no instruction. `missing k`: there is no byte k of the instruction (k = 0 is the opcode byte).
`unknownOpcode op`: `op` is no key of the table (R79). `layoutMismatch op`: the opcode map breaks R81 (a), so `op[7:6]`
is not its instruction's operand count; no admissible map gives this. -/
inductive DecodeError where
  | missing (k : Nat)
  | unknownOpcode (op : Byte)
  | layoutMismatch (op : Byte)
  deriving DecidableEq, Repr

/-- Format N (R74). -/
def formatN (i : Instr) : List Byte → Option Instr
  | [] => some i
  | _ :: _ => none

/-- Format R (R74). -/
def formatR (f : Byte → Instr) : List Byte → Option Instr
  | [a] => some (f a)
  | [] | _ :: _ :: _ => none

/-- Formats RR and RI (R74). -/
def formatRR (f : Byte → Byte → Instr) : List Byte → Option Instr
  | [a, b] => some (f a b)
  | [] | [_] | _ :: _ :: _ :: _ => none

/-- The instruction of a table entry and its operand bytes (R74). -/
def Mnemonic.assemble : Mnemonic → List Byte → Option Instr
  | .halt => formatN .halt
  | .ret => formatN .ret
  | .push => formatR .push
  | .pop => formatR .pop
  | .printReg => formatR .printReg
  | .call => formatR .call
  | .jump => formatR .jump
  | .jumpIfEqual => formatR .jumpIfEqual
  | .jumpIfNotEqual => formatR .jumpIfNotEqual
  | .loadImmediate => formatRR .loadImmediate
  | .multiply => formatRR .multiply
  | .compare => formatRR .compare

/-- Take the `n` operand bytes, the first of them byte `k` of the instruction, "in increasing k" (R88, R90 step 3). -/
def takeOperands : (n k : Nat) → List Byte → Except DecodeError (List Byte × List Byte)
  | 0, _, rest => .ok ([], rest)
  | _ + 1, k, [] => .error (.missing k)
  | n + 1, k, b :: rest =>
    match takeOperands n (k + 1) rest with
    | .ok (os, rest') => .ok (b :: os, rest')
    | .error e => .error e

/-- The decoder under an opcode map, on the bytes from the opcode on: the instruction and the bytes after it, or the first
check of R90 steps 1 to 3 that fails. -/
def decodeWith (t : OpcodeMap) : List Byte → Except DecodeError (Instr × List Byte)
  | [] => .error (.missing 0)
  | op :: bytes =>
    match t.lookup op with
    | none => .error (.unknownOpcode op)
    | some m =>
      match takeOperands (operandCount op) 1 bytes with
      | .error e => .error e
      | .ok (os, rest) =>
        match m.assemble os with
        | none => .error (.layoutMismatch op)
        | some i => .ok (i, rest)

/-- The decoder for the default opcode values of R80. -/
def decode (bytes : List Byte) : Except DecodeError (Instr × List Byte) := decodeWith OpcodeMap.ls8 bytes

/-- The encoder under an opcode map (R87): the opcode byte, then the operand bytes. -/
def encodeWith (t : OpcodeMap) (i : Instr) : List Byte := t.byteOf i.mnemonic :: i.operands

/-- The encoder for the default opcode values of R80. -/
def encode (i : Instr) : List Byte := encodeWith OpcodeMap.ls8 i

/-! ### Assembler names (30_encoding.md R85) -/

/-- The mnemonic as the handler table spells it (R80, R85). -/
def Mnemonic.name : Mnemonic → String
  | .halt => "HALT"
  | .ret => "RETURN"
  | .push => "PUSH"
  | .pop => "POP"
  | .printReg => "PRINT_REG"
  | .call => "CALL"
  | .jump => "JUMP"
  | .jumpIfEqual => "JUMP_IF_EQUAL"
  | .jumpIfNotEqual => "JUMP_IF_NOT_EQUAL"
  | .loadImmediate => "LOAD_IMMEDIATE"
  | .multiply => "MULTIPLY"
  | .compare => "COMPARE"

/-- The short LS-8 spelling (R85, 93_implementation_defined.md K5). -/
def Mnemonic.shortName : Mnemonic → String
  | .halt => "HLT"
  | .ret => "RET"
  | .push => "PUSH"
  | .pop => "POP"
  | .printReg => "PRN"
  | .call => "CALL"
  | .jump => "JMP"
  | .jumpIfEqual => "JEQ"
  | .jumpIfNotEqual => "JNE"
  | .loadImmediate => "LDI"
  | .multiply => "MUL"
  | .compare => "CMP"

/-- A register operand in assembly: `r0` to `r7` (R85). -/
def registerText (b : Byte) : String := "r" ++ Nat.repr b.toNat

/-- An instruction in the assembly syntax of R85: `MNEMONIC operand, operand`, literals in decimal. -/
def Instr.assembly (i : Instr) : String :=
  match i with
  | .halt | .ret => i.mnemonic.name
  | .printReg a | .push a | .pop a | .call a | .jump a | .jumpIfEqual a | .jumpIfNotEqual a =>
    i.mnemonic.name ++ " " ++ registerText a
  | .multiply a b | .compare a b => i.mnemonic.name ++ " " ++ registerText a ++ ", " ++ registerText b
  | .loadImmediate a imm => i.mnemonic.name ++ " " ++ registerText a ++ ", " ++ Nat.repr imm.toNat

/-! ### The host's numbering of one table row -/

/-- The bytes at consecutive increasing addresses (20_memory.md R55) of an instruction whose bits are `w`, bit 0 the least
significant bit of the first byte; every bit from `nbits` on is 0, up to the longest instruction (3 bytes). -/
def tableBytes (nbits w : Nat) : List Byte :=
  let v := w % 2 ^ nbits
  [BitVec.ofNat 8 v, BitVec.ofNat 8 (v / 256), BitVec.ofNat 8 (v / 65536)]

/-- The instruction the decoder reads from a table row's word. -/
def decodeTableWord (nbits w : Nat) : Option Instr :=
  match decode (tableBytes nbits w) with
  | .ok (i, _) => some i
  | .error _ => none

end Sys2Proof
end

