-- ==== Sys2Proof/Machine/State.lean ====
section
/-! DEFINITION. Everything the spec gives the machine, as plain data; why a step stops; the state after reset. -/

namespace Sys2Proof.Machine

/-- register_file_8x8: eight 8-bit registers R0..R7, no banks (10_state.md R20). -/
abbrev Regs := Vector Byte 8

/-- The index of SP: R7 is "reserved as the Stack Pointer" (10_state.md R23). -/
abbrev SP : Fin 8 := 7

/-- flag_register_set: three independent single bits (10_state.md R28). They have no bit positions (R31). -/
structure Flags where
  /-- E, Equal. -/
  e : Bool
  /-- L, Less. -/
  l : Bool
  /-- G, Greater. -/
  g : Bool
  deriving DecidableEq, Repr

/-- The 256 memory cells (20_memory.md R50) as the cells that differ from the zero they start with, by rising address. The
operations and the canonical form are in Machine/Ops.lean. -/
abbrev Memory := List Host.Cell

/-- The fault kinds of 60_exceptions.md R250, in the order of their codes 1..7. -/
inductive FaultKind where
  /-- Raised by a step whose fetched byte is no key of the dispatch table (R251). -/
  | unknownOpcode
  /-- Raised by an access at an address of 256 or more: opcode or operand fetch (R252). -/
  | memoryOutOfRange
  /-- Raised by a register-index operand of 8 or more (R253). -/
  | registerOutOfRange
  /-- Raised by CALL at pc = 254, whose return address 256 fits no cell (R254). -/
  | returnAddressOverflow
  /-- Raised by the ALU on an operation that is not ADD or MUL; unreachable (R255). -/
  | unsupportedAluOperation
  /-- Raised by PUSH or CALL at SP = 0, only when STRICT_STACK (R256). -/
  | stackOverflow
  /-- Raised by POP or RETURN at SP at or above SP_TOP, only when STRICT_STACK (R257). -/
  | stackUnderflow
  deriving DecidableEq, Repr

/-- The fault record `(kind, pc, info)`: pc is the address of the faulting instruction's opcode, info the opcode, address,
index or SP the fault names (10_state.md R37, 60_exceptions.md R259). -/
structure FaultRecord where
  kind : FaultKind
  pc   : Nat
  info : Nat
  deriving DecidableEq, Repr

/-- The engine state (10_state.md R33). -/
inductive Engine where
  /-- "constructed, SP/PC not yet initialized". -/
  | ready
  /-- "loop active". -/
  | running
  /-- Terminal, reached by HALT. -/
  | halted
  /-- Terminal, reached by a fault, holding its record. -/
  | faulted (r : FaultRecord)
  deriving DecidableEq, Repr

/-- The complete state (10_state.md R42), and the machine's configuration, which no step changes (log 2). -/
structure State where
  /-- The general registers, R7 the stack pointer. -/
  x      : Regs
  /-- The program counter, a natural number in [0, 256] (10_state.md R25). -/
  pc     : Nat
  /-- The comparison flags. -/
  flags  : Flags
  /-- The memory. -/
  mem    : Memory
  /-- The engine state, with the fault record. -/
  engine : Engine
  /-- The output channel, oldest string first (10_state.md R40). -/
  out    : List String
  /-- The machine's open parameters (00_scope.md R6). -/
  cfg    : Config
  deriving DecidableEq, Repr

/-- Why no step is enabled. A fault of the SPEC is not one of these: the spec describes its entry (60_exceptions.md R259),
so taking it is a next state with `engine = .faulted r`. -/
inductive Fault where
  /-- Raised by `step` in `Ready`: "no step is enabled until `run()`" (10_state.md R38). Safe: the machine takes no step. -/
  | notStarted
  /-- Raised by `step` in `Halted`: "no step is enabled" (10_state.md R38). Safe: the machine takes no step. -/
  | alreadyHalted
  /-- Raised by `step` in `Faulted`: "no step is enabled" (10_state.md R38). Safe: the machine takes no step. -/
  | alreadyFaulted
  /-- Raised by `step` when the fetched opcode's `op[7:6]` is not its instruction's operand count, which 30_encoding.md R81
  forbids of every opcode map. Safe: no machine of the spec has such a map, and the model stops. -/
  | inadmissibleOpcodeMap
  deriving DecidableEq, Repr

/-- Why the model gives an instruction no meaning. -/
inductive Refusal where
  /-- Raised by an arm of `exec` that has no meaning yet (none is left). Safe: the model stops. -/
  | notModelled (mnemonic : String)
  deriving DecidableEq, Repr

/-- The machine at the first step of a run with nothing loaded (10_state.md R41, 70_reset_and_hazards.md R292): SP 244,
PC 0, flags clear, memory zero, Running, no output, the default parameters of 00_scope.md R6.
DESIGN CHOICE, unsafe (log 1): R0..R6 are zero, the REG_INIT of `Config.launchDefaults`; the spec states no value. -/
def State.reset : State :=
  { x := #v[0, 0, 0, 0, 0, 0, 0, 244]
    pc := 0
    flags := { e := false, l := false, g := false }
    mem := []
    engine := .running
    out := []
    cfg := Config.launchDefaults OpcodeMap.ls8 }

end Sys2Proof.Machine
end

