-- ==== Sys2Proof/Machine/Flags.lean ====
section
/-! DEFINITION. flag_register_set: its clear port, its write port `compare_write` and its read port (41_alu.md R145, R146). -/

namespace Sys2Proof.Machine

/-- The clear port, used by `run()` (10_state.md R34): all three flags 0. -/
def clearedFlags : Flags := { e := false, l := false, g := false }

/-- `compare_write(a, b)`: "equality checked first, then less, then greater", unsigned (R145). -/
def compareFlags (a b : Byte) : Flags :=
  if a = b then { clearedFlags with e := true }
  else if a.toNat < b.toNat then { clearedFlags with l := true }
  else { clearedFlags with g := true }

end Sys2Proof.Machine
end

