-- ==== Sys2Proof/Machine/Ops.lean ====
section
/-! DEFINITION. The shared operations: registers, memory, the ALU, the stack, the output channel, taking a fault, and the
engine's post-handler pc advance. -/

namespace Sys2Proof.Machine

/-! ### State updates -/

/-- `x[i]` (10_state.md R21). No register is hardwired (R23). -/
def State.reg (s : State) (i : Fin 8) : Byte := s.x[i]

/-- `x[i] <- v` (10_state.md R21). -/
def State.setReg (s : State) (i : Fin 8) (v : Byte) : State := { s with x := s.x.set i v }

/-- `pc <- target` (00_scope.md R8). -/
def State.setPc (s : State) (target : Nat) : State := { s with pc := target }

/-- The flag register set's write port (41_alu.md R146). -/
def State.setFlags (s : State) (f : Flags) : State := { s with flags := f }

/-- Replace the memory. -/
def State.setMem (s : State) (m : Memory) : State := { s with mem := m }

/-- Enter an engine state (10_state.md R33). -/
def State.setEngine (s : State) (e : Engine) : State := { s with engine := e }

/-- `emit(line)`: append to the output channel (00_scope.md R8, 10_state.md R40). -/
def State.emit (s : State) (line : String) : State := { s with out := s.out ++ [line] }

/-- `halt()`: the engine state becomes Halted (00_scope.md R8, 10_state.md R36). -/
def State.halt (s : State) : State := s.setEngine .halted

/-! ### Raising and taking a fault -/

/-- What `raise <Fault>(info)` says (00_scope.md R8). -/
structure Raised where
  kind : FaultKind
  info : Nat
  deriving DecidableEq, Repr

/-- End the step with a fault: nothing the handler wrote before is kept (00_scope.md R8, 92_eei_decisions.md D8). -/
def raise {α : Type} (kind : FaultKind) (info : Nat) : Except Raised α := .error { kind := kind, info := info }

/-- TAKING A FAULT (60_exceptions.md R259, 10_state.md R37): from the state at the start of the step, the engine state becomes
`Faulted(kind, pc, info)`; no register, flag, cell, pc or output changes, and control goes nowhere. There is no return from
a fault (R260), so no operation undoes this one. -/
def State.takeFault (s : State) (r : Raised) : State :=
  s.setEngine (.faulted { kind := r.kind, pc := s.pc, info := r.info })

/-! ### Memory -/

/-- The size of memory in cells (20_memory.md R50). -/
def memSize : Nat := 256

/-- What a cell that is not listed reads as: memory is "zero-initialized" (20_memory.md R50). -/
def Memory.blank : Byte := 0

/-- The byte at an address. -/
def Memory.get : Memory → Nat → Byte
  | [], _ => Memory.blank
  | (a, v) :: m, b => if a = b then v else Memory.get m b

/-- Put a cell before the first cell with a larger address. -/
def Memory.insert (b : Nat) (v : Byte) : Memory → Memory
  | [] => [(b, v)]
  | (a, w) :: m => if b < a then (b, v) :: (a, w) :: m else (a, w) :: Memory.insert b v m

/-- Unlist a cell. -/
def Memory.erase (m : Memory) (b : Nat) : Memory := m.filter fun c => decide (c.1 ≠ b)

/-- Write one byte, keeping the canonical form: a blank value is not listed. -/
def Memory.set (m : Memory) (b : Nat) (v : Byte) : Memory :=
  if v = Memory.blank then Memory.erase m b else Memory.insert b v (Memory.erase m b)

/-- Addresses rise strictly from `lo` on, lie in the address space, and no listed cell holds the blank value. -/
def Memory.wfFrom : Nat → Memory → Bool
  | _, [] => true
  | lo, (a, v) :: m => decide (lo ≤ a) && decide (a < memSize) && decide (v ≠ Memory.blank) && Memory.wfFrom (a + 1) m

/-- The canonical form: equal memories are equal lists. -/
def Memory.wf (m : Memory) : Bool := Memory.wfFrom 0 m

/-- `MemRead(addr, 1)` with its bounds check (20_memory.md R51). A read has no side effect (R57). -/
def State.memRead (s : State) (addr : Nat) : Except Raised Byte :=
  if addr < memSize then .ok (Memory.get s.mem addr) else raise .memoryOutOfRange addr

/-- `MemWrite(addr, 1, v)` with its bounds check (20_memory.md R51). -/
def State.memWrite (s : State) (addr : Nat) (v : Byte) : Except Raised State :=
  if addr < memSize then .ok (s.setMem (Memory.set s.mem addr v)) else raise .memoryOutOfRange addr

/-! ### The stack (42_stack.md R170, R173) -/

/-- The SP decrement `x[7] <- (x[7] - 1) mod 256`. -/
def State.decSp (s : State) : State := s.setReg SP (s.reg SP - 1)

/-- The SP increment `x[7] <- (x[7] + 1) mod 256`. -/
def State.incSp (s : State) : State := s.setReg SP (s.reg SP + 1)

/-- The push mechanics: decrement SP, then write to the cell at the new SP a value read AFTER the decrement
(92_eei_decisions.md D18). -/
def State.pushValue (s : State) (value : State → Byte) : Except Raised State :=
  let s' := s.decSp
  s'.memWrite (s'.reg SP).toNat (value s')

/-- The cell a pop reads: `MemRead(x[7], 1)`, before the increment. -/
def State.stackTop (s : State) : Except Raised Byte := s.memRead (s.reg SP).toNat

/-- PUSH's and CALL's check under STRICT_STACK: a starting SP of 0 raises StackOverflow(SP) (R173, 60_exceptions.md R256). -/
def State.checkOverflow (s : State) : Except Raised Unit :=
  if s.cfg.strictStack ∧ s.reg SP = 0 then raise .stackOverflow (s.reg SP).toNat else .ok ()

/-- POP's and RETURN's check under STRICT_STACK: a starting SP at or above SP_TOP raises StackUnderflow(SP) (R173,
60_exceptions.md R257). -/
def State.checkUnderflow (s : State) : Except Raised Unit :=
  if s.cfg.strictStack ∧ s.cfg.spTop.toNat ≤ (s.reg SP).toNat then raise .stackUnderflow (s.reg SP).toNat else .ok ()

/-- CALL's check: a return address that fits no cell raises ReturnAddressOverflow(ret) (43_control_transfer.md R201). -/
def checkReturnAddress (ret : Nat) : Except Raised Unit :=
  if memSize ≤ ret then raise .returnAddressOverflow ret else .ok ()

/-! ### alu_unit (41_alu.md R140 to R143) -/

/-- An ALU operation code. `other n` is any code outside {ADD, MUL}; no instruction supplies one (R143). -/
inductive AluOp where
  | add
  | mul
  | other (n : Nat)
  deriving DecidableEq, Repr

/-- `apply(op, a, b)`: the exact unsigned result, reduced mod 256 (R141, R142; 92_eei_decisions.md D1); a code outside
{ADD, MUL} raises UnsupportedAluOperation (R143). It reads and writes no state (R140). -/
def aluApply (op : AluOp) (a b : Byte) : Except Raised Byte :=
  match op with
  | .add => .ok (BitVec.ofNat 8 (a.toNat + b.toNat))
  | .mul => .ok (BitVec.ofNat 8 (a.toNat * b.toNat))
  | .other n => raise .unsupportedAluOperation n

/-! ### The output channel -/

/-- One line of PRINT_REG: `decimal(v)`, the shortest base-10 form, and LF (40_register_io_halt.md R110, R111). -/
def decimalLine (v : Byte) : String := Nat.repr v.toNat ++ "\n"

/-! ### program_counter_logic (30_encoding.md R88) -/

/-- The engine's post-handler advance: `if P = 0: pc <- pc + size`, both from the opcode's bits (R72). It does not wrap
(10_state.md R27). -/
def State.advance (s : State) (op : Byte) : State := if setsPcDirectly op then s else s.setPc (s.pc + instrSize op)

/-- The end of a step that ran a handler from `s`: the handler's state and the engine's advance, or the fault it raised,
taken from `s`. -/
def complete (m : Mnemonic) (s : State) (r : Except Raised State) : Host.Outcome State Fault Refusal :=
  match r with
  | .ok s' => .next (s'.advance (s.cfg.opcodes.byteOf m))
  | .error e => .next (s.takeFault e)

end Sys2Proof.Machine
end

