-- ==== Sys2Proof/Machine/Operands.lean ====
section
/-! DEFINITION. Operand forms (30_encoding.md R75, R76): a register index and a literal. A literal is the operand byte itself,
so it needs no function. -/

namespace Sys2Proof.Machine

/-- A register-index operand: the whole byte, unmasked; 8 or more raises RegisterOutOfRange(index) (30_encoding.md R75,
60_exceptions.md R253). -/
def regIndex (b : Byte) : Except Raised (Fin 8) :=
  if h : b.toNat < 8 then .ok ⟨b.toNat, h⟩ else raise .registerOutOfRange b.toNat

/-- The operand byte that names a register. -/
def regByte (i : Fin 8) : Byte := BitVec.ofNat 8 i.val

end Sys2Proof.Machine
end

