-- ==== Sys2Proof/Machine/Alu.lean ====
section
/-! DEFINITION. MULTIPLY and COMPARE (41_alu.md). -/

namespace Sys2Proof.Machine

/-- MULTIPLY a, b (41_alu.md R144). -/
def execMultiply (a b : Byte) (s : State) : Host.Outcome State Fault Refusal :=
  complete .multiply s do
    let i ← regIndex a
    let j ← regIndex b
    let product ← aluApply .mul (s.reg i) (s.reg j)
    .ok (s.setReg i product)

/-- COMPARE a, b (41_alu.md R145). -/
def execCompare (a b : Byte) (s : State) : Host.Outcome State Fault Refusal :=
  complete .compare s do
    let i ← regIndex a
    let j ← regIndex b
    .ok (s.setFlags (compareFlags (s.reg i) (s.reg j)))

end Sys2Proof.Machine
end

