-- ==== Sys2Proof/Machine/Control.lean ====
section
/-! DEFINITION. CALL, RETURN, JUMP, JUMP_IF_EQUAL and JUMP_IF_NOT_EQUAL (43_control_transfer.md). All have P = 1, so each
writes pc on every path. -/

namespace Sys2Proof.Machine

/-- CALL a (43_control_transfer.md R201): the target is read after the push, so CALL r7 goes to the new SP. -/
def execCall (a : Byte) (s : State) : Host.Outcome State Fault Refusal :=
  complete .call s do
    let i ← regIndex a
    checkReturnAddress (s.pc + 2)
    s.checkOverflow
    let s' ← s.pushValue fun _ => BitVec.ofNat 8 (s.pc + 2)
    .ok (s'.setPc (s'.reg i).toNat)

/-- RETURN (43_control_transfer.md R202). -/
def execReturn (s : State) : Host.Outcome State Fault Refusal :=
  complete .ret s do
    s.checkUnderflow
    let t ← s.stackTop
    .ok (s.incSp.setPc t.toNat)

/-- JUMP a (43_control_transfer.md R203). -/
def execJump (a : Byte) (s : State) : Host.Outcome State Fault Refusal :=
  complete .jump s do
    let i ← regIndex a
    .ok (s.setPc (s.reg i).toNat)

/-- JUMP_IF_EQUAL a (43_control_transfer.md R204): the index is checked on both paths, and the handler itself steps over the
two bytes when the branch is not taken. -/
def execJumpIfEqual (a : Byte) (s : State) : Host.Outcome State Fault Refusal :=
  complete .jumpIfEqual s do
    let i ← regIndex a
    .ok (s.setPc (if s.flags.e then (s.reg i).toNat else s.pc + 2))

/-- JUMP_IF_NOT_EQUAL a (43_control_transfer.md R205). -/
def execJumpIfNotEqual (a : Byte) (s : State) : Host.Outcome State Fault Refusal :=
  complete .jumpIfNotEqual s do
    let i ← regIndex a
    .ok (s.setPc (if s.flags.e then s.pc + 2 else (s.reg i).toNat))

end Sys2Proof.Machine
end

