-- ==== Sys2Proof/Machine/RegisterIo.lean ====
section
/-! DEFINITION. PRINT_REG, LOAD_IMMEDIATE and HALT (40_register_io_halt.md). -/

namespace Sys2Proof.Machine

/-- PRINT_REG a (40_register_io_halt.md R110). -/
def execPrintReg (a : Byte) (s : State) : Host.Outcome State Fault Refusal :=
  complete .printReg s do
    let i ← regIndex a
    .ok (s.emit (decimalLine (s.reg i)))

/-- LOAD_IMMEDIATE a, imm (40_register_io_halt.md R112). -/
def execLoadImmediate (a imm : Byte) (s : State) : Host.Outcome State Fault Refusal :=
  complete .loadImmediate s do
    let i ← regIndex a
    .ok (s.setReg i imm)

/-- HALT (40_register_io_halt.md R113): the advance still happens (30_encoding.md R92). -/
def execHalt (s : State) : Host.Outcome State Fault Refusal :=
  complete .halt s (.ok s.halt)

end Sys2Proof.Machine
end

