-- ==== Sys2Proof/Machine/Stack.lean ====
section
/-! DEFINITION. PUSH and POP (42_stack.md). -/

namespace Sys2Proof.Machine

/-- PUSH a (42_stack.md R171): the register is read after the decrement, so PUSH r7 stores the new SP. -/
def execPush (a : Byte) (s : State) : Host.Outcome State Fault Refusal :=
  complete .push s do
    let i ← regIndex a
    s.checkOverflow
    s.pushValue fun s' => s'.reg i

/-- POP a (42_stack.md R172): the register is written before the increment, so POP r7 leaves the loaded value plus 1. -/
def execPop (a : Byte) (s : State) : Host.Outcome State Fault Refusal :=
  complete .pop s do
    let i ← regIndex a
    s.checkUnderflow
    let v ← s.stackTop
    .ok (s.setReg i v).incSp

end Sys2Proof.Machine
end

