-- ==== Sys2Proof/Machine/Dispatch.lean ====
section
/-! DEFINITION. The Instruction Dispatch Table's handlers (10_state.md R39, 30_encoding.md R80): one arm per instruction. -/

namespace Sys2Proof.Machine

/-- One instruction, from its register-index checks (30_encoding.md R90 step 4) to the engine's pc advance (R88). -/
def exec (i : Instr) (s : State) : Host.Outcome State Fault Refusal :=
  match i with
  | .printReg a => Sys2Proof.Machine.execPrintReg a s
  | .loadImmediate a imm => Sys2Proof.Machine.execLoadImmediate a imm s
  | .halt => Sys2Proof.Machine.execHalt s
  | .multiply a b => Sys2Proof.Machine.execMultiply a b s
  | .push a => Sys2Proof.Machine.execPush a s
  | .pop a => Sys2Proof.Machine.execPop a s
  | .call a => Sys2Proof.Machine.execCall a s
  | .ret => Sys2Proof.Machine.execReturn s
  | .compare a b => Sys2Proof.Machine.execCompare a b s
  | .jump a => Sys2Proof.Machine.execJump a s
  | .jumpIfEqual a => Sys2Proof.Machine.execJumpIfEqual a s
  | .jumpIfNotEqual a => Sys2Proof.Machine.execJumpIfNotEqual a s

end Sys2Proof.Machine
end

