-- ==== Sys2Proof/Machine/Fetch.lean ====
section
/-! DEFINITION. Fetching and decoding the instruction at pc (30_encoding.md R88), and what a failed fetch does. -/

namespace Sys2Proof.Machine

/-- The bytes at `addr`, `addr + 1`, … that lie in memory, at most `n` of them. -/
def Memory.window (m : Memory) : (addr n : Nat) → List Byte
  | _, 0 => []
  | addr, n + 1 => if addr < memSize then Memory.get m addr :: Memory.window m (addr + 1) n else []

/-- The bytes an instruction at pc could take: four, as many as `op[7:6]` can count, fewer at the end of memory. Only the
instruction's own bytes matter (30_encoding.md R91), since a read has no side effect (20_memory.md R57). The bytes are read
as memory stands at the start of the step (R64). -/
def State.fetchWindow (s : State) : List Byte := Memory.window s.mem s.pc 4

/-- Fetch and decode the instruction at pc: the checks of 30_encoding.md R90 steps 1 to 3. -/
def State.fetch (s : State) : Except DecodeError Instr :=
  match decodeWith s.cfg.opcodes s.fetchWindow with
  | .ok (i, _) => .ok i
  | .error e => .error e

/-- A fetch that fails: byte k of the instruction lies outside memory, MemoryOutOfRange(pc + k); the opcode is no key,
UnknownOpcode(op) (30_encoding.md R88). An opcode map that breaks R81 (a) is no machine of the spec. -/
def State.fetchFailed (s : State) (e : DecodeError) : Host.Outcome State Fault Refusal :=
  match e with
  | .missing k => .next (s.takeFault { kind := .memoryOutOfRange, info := s.pc + k })
  | .unknownOpcode op => .next (s.takeFault { kind := .unknownOpcode, info := op.toNat })
  | .layoutMismatch _ => .fault .inadmissibleOpcodeMap

/-- Store bytes at `addr`, `addr + 1`, …; a byte whose address is outside memory is dropped. -/
def Memory.place (m : Memory) : Nat → List Byte → Memory
  | _, [] => m
  | addr, b :: bs => Memory.place (if addr < memSize then Memory.set m addr b else m) (addr + 1) bs

end Sys2Proof.Machine
end

