-- ==== Sys2Proof/Machine/Step.lean ====
section
/-! DEFINITION. One step of the engine (30_encoding.md R88). -/

namespace Sys2Proof.Machine

/-- One iteration of the fetch-decode-execute loop, enabled only in Running (10_state.md R35, R38). -/
def step (s : State) : Host.Outcome State Fault Refusal :=
  match s.engine with
  | .running =>
    match s.fetch with
    | .ok i => exec i s
    | .error e => s.fetchFailed e
  | .ready => .fault .notStarted
  | .halted => .fault .alreadyHalted
  | .faulted _ => .fault .alreadyFaulted

/-- The state with an opcode-table row's word stored at pc, where the next step fetches (log 9). -/
def State.withFetchWord (s : State) (nbits w : Nat) : State :=
  s.setMem (Memory.place s.mem s.pc (tableBytes nbits w))

end Sys2Proof.Machine
end

