-- ==== Sys2Proof/Machine/Launch.lean ====
section
/-! DEFINITION. Construction, `load` and `run()`: how a program comes to run (70_reset_and_hazards.md R290 to R297). -/

namespace Sys2Proof.Machine

/-- Why the core never runs: an image of more than 256 bytes (70_reset_and_hazards.md R297, 92_eei_decisions.md D14), a line
of the program file that is malformed (R298, D25), or a load after `Ready`, which the boot order excludes (R291). -/
inductive LoadError where
  | imageTooLong (length : Nat)
  | malformedLine (line : Nat)
  | notReady
  deriving DecidableEq, Repr

/-- The machine right after construction: Ready, every cell 0, nothing emitted (70_reset_and_hazards.md R290). The registers,
pc and flags are "not yet initialized", so they are arguments: any value (93_implementation_defined.md U17, log 6). -/
def State.constructed (cfg : Config) (x : Regs) (pc : Nat) (flags : Flags) : State :=
  { x := x, pc := pc, flags := flags, mem := [], engine := .ready, out := [], cfg := cfg }

/-- `load(bytes)`: in Ready, byte i goes to address i; an image that does not fit is a load error
(70_reset_and_hazards.md R291, R297). -/
def State.load (s : State) (bytes : List Byte) : Except LoadError State :=
  match s.engine with
  | .ready =>
    if bytes.length ≤ memSize then .ok (s.setMem (Memory.place s.mem 0 bytes))
    else .error (.imageTooLong bytes.length)
  | .running | .halted | .faulted _ => .error .notReady

/-- The registers `run()` sets: R0..R6 to REG_INIT, SP to 244 (10_state.md R34). -/
def launchRegs (cfg : Config) : Regs :=
  #v[cfg.regInit[0], cfg.regInit[1], cfg.regInit[2], cfg.regInit[3], cfg.regInit[4], cfg.regInit[5], cfg.regInit[6], 244]

/-- `run()`: Ready to Running, the only reset (10_state.md R34, 70_reset_and_hazards.md R292); the entry point is 0
(92_eei_decisions.md D16), the output channel is empty (10_state.md R41) and memory is unchanged. From any other engine
state there is no such transition: `none` (70_reset_and_hazards.md R293). -/
def State.run (s : State) : Option State :=
  match s.engine with
  | .ready =>
    some { s with x := launchRegs s.cfg, pc := 0, flags := clearedFlags, engine := .running, out := [] }
  | .running | .halted | .faulted _ => none

/-- The boot order (70_reset_and_hazards.md R291): load in Ready, then `run()`. -/
def State.boot (s : State) (bytes : List Byte) : Except LoadError State :=
  match s.load bytes with
  | .ok loaded =>
    match loaded.run with
    | some started => .ok started
    | none => .error .notReady
  | .error e => .error e

end Sys2Proof.Machine
end

