-- ==== Sys2Proof/Machine/Loader.lean ====
section
/-! DEFINITION. The program file format the loader decodes (70_reset_and_hazards.md R298). The loader is outside the block
(00_scope.md R4); this is its interface. -/

namespace Sys2Proof.Machine

/-- A text's lines. -/
def splitLines : List Char → List (List Char)
  | [] => [[]]
  | c :: cs =>
    match splitLines cs with
    | [] => [[c]]
    | l :: ls => if c = '\n' then [] :: l :: ls else (c :: l) :: ls

/-- "everything from `#` onward is ignored". -/
def stripComment (line : List Char) : List Char := line.takeWhile fun c => c != '#'

/-- Whitespace trimming at both ends. -/
def trimLine (line : List Char) : List Char :=
  ((line.dropWhile Char.isWhitespace).reverse.dropWhile Char.isWhitespace).reverse

/-- One binary digit. -/
def binaryDigit (c : Char) : Option Bool :=
  if c = '0' then some false else if c = '1' then some true else none

/-- Binary digits, most significant first (93_implementation_defined.md K6), onto an accumulated value. -/
def binaryDigits : List Char → Byte → Option Byte
  | [], acc => some acc
  | c :: cs, acc =>
    match binaryDigit c with
    | some bit => binaryDigits cs (acc + acc + (if bit then 1 else 0))
    | none => none

/-- "an 8-character binary literal": exactly eight digits (92_eei_decisions.md D25). -/
def parseByte (line : List Char) : Option Byte := if line.length = 8 then binaryDigits line 0 else none

/-- The bytes of the lines from line `n` on; blank lines are skipped, a malformed line is a load error (D25). -/
def parseLines : (n : Nat) → List (List Char) → Except LoadError (List Byte)
  | _, [] => .ok []
  | n, line :: rest =>
    match trimLine (stripComment line) with
    | [] => parseLines (n + 1) rest
    | c :: cs =>
      match parseByte (c :: cs) with
      | none => .error (.malformedLine n)
      | some b =>
        match parseLines (n + 1) rest with
        | .ok bs => .ok (b :: bs)
        | .error e => .error e

/-- The image a program file stands for: the first literal is byte 0. -/
def parseProgram (text : List Char) : Except LoadError (List Byte) := parseLines 1 (splitLines text)

end Sys2Proof.Machine
end

