-- ==== Sys2Proof/Machine/Observe.lean ====
section
/-! DEFINITION. What the host observes at the end of a run (60_exceptions.md R250, R270, R272, R273). -/

namespace Sys2Proof.Machine

/-- The fault's code number (60_exceptions.md R250). -/
def FaultKind.code : FaultKind → Nat
  | .unknownOpcode => 1
  | .memoryOutOfRange => 2
  | .registerOutOfRange => 3
  | .returnAddressOverflow => 4
  | .unsupportedAluOperation => 5
  | .stackOverflow => 6
  | .stackUnderflow => 7

/-- The observation of an ended run (60_exceptions.md R273): Halted with the final registers, flags, pc, memory and output,
or Faulted with the record and the output emitted before the fault, and nothing else of the state. -/
inductive Observation where
  | halted (x : Regs) (flags : Flags) (pc : Nat) (mem : Memory) (out : List String)
  | faulted (r : FaultRecord) (out : List String)
  deriving DecidableEq, Repr

/-- The observation, once the run has ended. -/
def State.observe (s : State) : Option Observation :=
  match s.engine with
  | .halted => some (.halted s.x s.flags s.pc s.mem s.out)
  | .faulted r => some (.faulted r s.out)
  | .ready | .running => none

/-- EXIT_CODE(kind), "non-zero and not 2" (60_exceptions.md R272): the open index of Config counts through 1, 3, 4, 5, … -/
def exitCodeOf (kind : FaultKind) : Nat :=
  match Config.exitCodeIndex kind.code with
  | 0 => 1
  | n + 1 => n + 3

/-- The host process's exit status at the end of a run (60_exceptions.md R272): 0 on normal HALT completion. -/
def State.exitStatus (s : State) : Option Nat :=
  match s.engine with
  | .halted => some 0
  | .faulted r => some (exitCodeOf r.kind)
  | .ready | .running => none

/-- The exit status of a load failure, after which no machine execution is attempted (60_exceptions.md R270). -/
def loadFailureStatus : Nat := 2

end Sys2Proof.Machine
end

