-- ==== Sys2Proof/Safety.lean ====
section
/-! DEFINITION. The terms claims are stated in: what a good state is, where an instruction stands, how a step faults. -/

namespace Sys2Proof.Machine

/-- "at every step boundary of a run, either E = L = G = 0 or exactly one of E, L, G is 1" (10_state.md R31). -/
def Flags.legal (f : Flags) : Bool :=
  decide (f = ⟨false, false, false⟩) || decide (f = ⟨true, false, false⟩) ||
    decide (f = ⟨false, true, false⟩) || decide (f = ⟨false, false, true⟩)

/-- A good state: memory in canonical form, pc in [0, 256] (10_state.md R25), flags as R31 says, an opcode map that meets
30_encoding.md R81, and a fault record, if there is one, that names the pc the state holds (10_state.md R37). -/
structure State.Inv (s : State) : Prop where
  mem_wf      : Memory.wf s.mem = true
  pc_le       : s.pc ≤ memSize
  flags_legal : s.flags.legal = true
  opcodes_ok  : s.cfg.opcodes.Admissible
  fault_pc    : ∀ r, s.engine = .faulted r → r.pc = s.pc

/-- The bytes of `i`, under the machine's opcode map, stand in memory at pc. -/
def State.InstructionAt (s : State) (i : Instr) : Prop :=
  ∀ k (h : k < (encodeWith s.cfg.opcodes i).length),
    s.pc + k < memSize ∧ Memory.get s.mem (s.pc + k) = (encodeWith s.cfg.opcodes i)[k]

/-- An outcome takes the fault `kind(info)` of the instruction at the pc of `s`: the engine state becomes
`Faulted(kind, pc, info)` and nothing is emitted. It reads nothing else of the state after the fault (60_exceptions.md
R273, 93_implementation_defined.md U7). -/
def TakesFault (s : State) (o : Host.Outcome State Fault Refusal) (kind : FaultKind) (info : Nat) : Prop :=
  ∃ t, o = .next t ∧ t.engine = .faulted { kind := kind, pc := s.pc, info := info } ∧ t.out = s.out

/-- In every running machine with an admissible opcode map whose memory holds the opcode of `m` at pc and ends before that
instruction's last operand byte, the step takes MemoryOutOfRange, naming address 256 (30_encoding.md R90 step 3, R91). -/
def OperandFetchFaults (m : Mnemonic) : Prop :=
  ∀ s : State, s.engine = .running → s.cfg.opcodes.Admissible → s.pc < memSize →
    Memory.get s.mem s.pc = s.cfg.opcodes.byteOf m → memSize ≤ s.pc + m.arity →
    TakesFault s (step s) .memoryOutOfRange memSize

/-- A state with L and G put aside: two states with the same such view differ at most in them. -/
def State.withoutLessGreater (s : State) : State := s.setFlags { e := s.flags.e, l := false, g := false }

/-- An outcome seen through a view of its next state. -/
def viewOutcome (view : State → State) (o : Host.Outcome State Fault Refusal) : Host.Outcome State Fault Refusal :=
  match o with
  | .next t => .next (view t)
  | .fault r => .fault r
  | .refused r => .refused r

end Sys2Proof.Machine
end

