-- ==== Sys2Proof/WellFormed.lean ====
section
/-! DEFINITION. Which instruction terms are legal: every register index names a register. -/

namespace Sys2Proof

/-- The register-index operands of an instruction, first operand first (30_encoding.md R74). LOAD_IMMEDIATE's second operand
is a literal, not one of them. -/
def Instr.registerOperands : Instr → List Byte
  | .printReg a => [a]
  | .loadImmediate a _ => [a]
  | .halt => []
  | .multiply a b => [a, b]
  | .push a => [a]
  | .pop a => [a]
  | .call a => [a]
  | .ret => []
  | .compare a b => [a, b]
  | .jump a => [a]
  | .jumpIfEqual a => [a]
  | .jumpIfNotEqual a => [a]

/-- A register-index operand is legal when it is in [0, 8) (30_encoding.md R75, 10_state.md R21). -/
def legalRegister (b : Byte) : Bool := decide (b.toNat < 8)

/-- An instruction is well formed when each of its register operands is legal. A literal operand is never range-checked
(40_register_io_halt.md R112). -/
def Instr.wellFormed (i : Instr) : Bool := i.registerOperands.all legalRegister

end Sys2Proof
end

