-- ==== Sys2Proof/Certificates/Slice0/Obligations.lean ====
section
/-! DEFINITION. The statements for the provers. A machine's parameters (STRICT_STACK, SP_TOP, REG_INIT, OPCODE) stand in its
state, so "every state" means every parameter value too; `Admissible` is 30_encoding.md R81. A statement whose fault
clause uses `TakesFault` reads only the fault record and the output after the fault (60_exceptions.md R273). -/

open Sys2Proof Sys2Proof.Machine

/-! ### Encoding and decoding -/

/-- The words of 95_test_vectors.md section 2.1, written out from the opcode table, decode to their instructions, and the
illegal bytes it lists to UnknownOpcode. The opcode values are the spec's decision D2 (log 3). -/
def Obligations.WrittenOutWordsDecode : Prop :=
  decode [0b00000001] = .ok (.halt, []) ∧
  decode [0b00010001] = .ok (.ret, []) ∧
  decode [0b01000101, 2] = .ok (.push 2, []) ∧
  decode [0b01000110, 4] = .ok (.pop 4, []) ∧
  decode [0b01000111, 7] = .ok (.printReg 7, []) ∧
  decode [0b01010000, 3] = .ok (.call 3, []) ∧
  decode [0b01010100, 2] = .ok (.jump 2, []) ∧
  decode [0b01010101, 2] = .ok (.jumpIfEqual 2, []) ∧
  decode [0b01010110, 2] = .ok (.jumpIfNotEqual 2, []) ∧
  decode [0b10000010, 0, 9] = .ok (.loadImmediate 0 9, []) ∧
  decode [0b10100010, 0, 1] = .ok (.multiply 0 1, []) ∧
  decode [0b10100111, 3, 4] = .ok (.compare 3 4, []) ∧
  decode [0x00] = .error (.unknownOpcode 0x00) ∧
  decode [0xA0, 0, 0] = .error (.unknownOpcode 0xA0) ∧
  decode [0xC0, 0, 0, 0] = .error (.unknownOpcode 0xC0) ∧
  decode [0xFF, 0, 0, 0] = .error (.unknownOpcode 0xFF) ∧
  decode [0x12] = .error (.unknownOpcode 0x12)

/-- Decoding what the encoder writes gives the instruction back, every operand byte at every value, whatever follows it,
under every opcode map that meets R81 (30_encoding.md sections 1 to 4). -/
def Obligations.DecodeOfEncodeIsTheInstruction : Prop :=
  ∀ t : OpcodeMap, t.Admissible → ∀ (i : Instr) (rest : List Byte),
    decodeWith t (encodeWith t i ++ rest) = .ok (i, rest)

/-- The other direction: bytes that decode are the encoding of what they decode to, followed by the bytes left over, so
no two byte strings stand for one instruction. -/
def Obligations.EncodeOfDecodeIsTheBytes : Prop :=
  ∀ (t : OpcodeMap) (bytes : List Byte) (i : Instr) (rest : List Byte),
    decodeWith t bytes = .ok (i, rest) → encodeWith t i ++ rest = bytes

/-! ### The step -/

/-- A step runs the decoded instruction: in Running, when the bytes at pc decode to `i`, the step is `exec i`, which
includes the engine's pc advance (30_encoding.md section 5). The step adds nothing else. -/
def Obligations.StepRunsTheDecodedInstruction : Prop :=
  ∀ (s : State) (i : Instr) (rest : List Byte), s.engine = .running →
    decodeWith s.cfg.opcodes s.fetchWindow = .ok (i, rest) → step s = exec i s

/-- When an instruction's bytes stand in memory at pc, whatever stands around them, the step runs that instruction. -/
def Obligations.StepRunsTheInstructionInMemory : Prop :=
  ∀ (s : State) (i : Instr), s.engine = .running → s.cfg.opcodes.Admissible → s.InstructionAt i → step s = exec i s

/-- A running machine whose opcode map meets R81 always has a next state: every instruction completes or its fault is
taken, and no step is refused (00_scope.md R3's fault policy; rests on the model's reading of a fault as a state, log 7). -/
def Obligations.RunningMachineAlwaysSteps : Prop :=
  ∀ s : State, s.engine = .running → s.cfg.opcodes.Admissible → ∃ t, step s = .next t

/-! ### Fetch, opcode and operand faults -/

/-- An access outside [0, 256) is a bounds fault, at either end of the memory interface; the opcode fetch and the operand
fetch raise it with the faulting address and the instruction's pc; and nothing an instruction does after its fetch raises
it (60_exceptions.md section 1). That the operand fetch comes before the register check and names the first address outside
is the spec's decision D9 (log 16). -/
def Obligations.AccessOutsideMemoryFaults : Prop :=
  (∀ (s : State) (a : Nat), memSize ≤ a →
    s.memRead a = raise .memoryOutOfRange a ∧ ∀ v, s.memWrite a v = raise .memoryOutOfRange a) ∧
  (∀ s : State, s.engine = .running → memSize ≤ s.pc → TakesFault s (step s) .memoryOutOfRange s.pc) ∧
  (∀ m : Mnemonic, OperandFetchFaults m) ∧
  (∀ (i : Instr) (s t : State) (r : FaultRecord), s.engine = .running → exec i s = .next t → t.engine = .faulted r →
    r.kind ≠ .memoryOutOfRange)

/-- R79 and R251: a fetched byte that is no key of the dispatch table raises UnknownOpcode, identifying the opcode and pc,
whatever bytes follow it, and the pc does not advance. -/
def Obligations.UnregisteredOpcodeFaults : Prop :=
  ∀ s : State, s.engine = .running → s.pc < memSize →
    (∀ m, s.cfg.opcodes.byteOf m ≠ Memory.get s.mem s.pc) →
    TakesFault s (step s) .unknownOpcode (Memory.get s.mem s.pc).toNat ∧ ∀ t, step s = .next t → t.pc = s.pc

/-- A register-index operand outside [0, 8) raises RegisterOutOfRange in every instruction that has one, MULTIPLY and
COMPARE looking at the first operand first (the order is the spec's decision D9, log 16); an instruction with no illegal operand, HALT and RETURN among them, never
raises it. -/
def Obligations.IllegalRegisterOperandFaults : Prop :=
  (∀ (a : Byte) (s : State), 8 ≤ a.toNat →
    TakesFault s (exec (.printReg a) s) .registerOutOfRange a.toNat ∧
    (∀ imm, TakesFault s (exec (.loadImmediate a imm) s) .registerOutOfRange a.toNat) ∧
    TakesFault s (exec (.push a) s) .registerOutOfRange a.toNat ∧
    TakesFault s (exec (.pop a) s) .registerOutOfRange a.toNat ∧
    TakesFault s (exec (.call a) s) .registerOutOfRange a.toNat ∧
    TakesFault s (exec (.jump a) s) .registerOutOfRange a.toNat ∧
    TakesFault s (exec (.jumpIfEqual a) s) .registerOutOfRange a.toNat ∧
    TakesFault s (exec (.jumpIfNotEqual a) s) .registerOutOfRange a.toNat ∧
    (∀ b, TakesFault s (exec (.multiply a b) s) .registerOutOfRange a.toNat) ∧
    (∀ b, TakesFault s (exec (.compare a b) s) .registerOutOfRange a.toNat) ∧
    (∀ i : Fin 8, TakesFault s (exec (.multiply (regByte i) a) s) .registerOutOfRange a.toNat) ∧
    (∀ i : Fin 8, TakesFault s (exec (.compare (regByte i) a) s) .registerOutOfRange a.toNat)) ∧
  (∀ (i : Instr) (s t : State) (r : FaultRecord), i.wellFormed = true → s.engine = .running →
    exec i s = .next t → t.engine = .faulted r → r.kind ≠ .registerOutOfRange)

/-! ### What each instruction does, and what it leaves alone

Each statement says where the instruction completes, its result and its frame: registers, flags, memory byte by byte, the
output channel, the engine state and the configuration. -/

/-- PRINT_REG (40_register_io_halt.md) appends the register's decimal value and a newline. The digits' form is D22 (log 10). -/
def Obligations.PrintRegAppendsDecimalLine : Prop :=
  ∀ (s : State) (i : Fin 8), s.cfg.opcodes.Admissible →
    ∃ t, exec (.printReg (regByte i)) s = .next t ∧
      t.out = s.out ++ [Nat.repr (s.reg i).toNat ++ "\n"] ∧ t.pc = s.pc + 2 ∧
      (∀ j, t.reg j = s.reg j) ∧ t.flags = s.flags ∧ (∀ a, Memory.get t.mem a = Memory.get s.mem a) ∧
      t.engine = s.engine ∧ t.cfg = s.cfg

/-- LOAD_IMMEDIATE (40_register_io_halt.md) sets the register, SP included, to the literal, every literal being legal. -/
def Obligations.LoadImmediateSetsRegister : Prop :=
  ∀ (s : State) (i : Fin 8) (imm : Byte), s.cfg.opcodes.Admissible →
    ∃ t, exec (.loadImmediate (regByte i) imm) s = .next t ∧
      t.reg i = imm ∧ t.pc = s.pc + 3 ∧
      (∀ j, j ≠ i → t.reg j = s.reg j) ∧ t.flags = s.flags ∧ (∀ a, Memory.get t.mem a = Memory.get s.mem a) ∧
      t.out = s.out ∧ t.engine = s.engine ∧ t.cfg = s.cfg

/-- R36 and R92: HALT enters Halted with the pc past it, changes nothing else, and no further instruction executes. -/
def Obligations.HaltStopsWithPcPastIt : Prop :=
  ∀ s : State, s.cfg.opcodes.Admissible →
    ∃ t, exec .halt s = .next t ∧
      t.engine = .halted ∧ t.pc = s.pc + 1 ∧
      (∀ j, t.reg j = s.reg j) ∧ t.flags = s.flags ∧ (∀ a, Memory.get t.mem a = Memory.get s.mem a) ∧
      t.out = s.out ∧ t.cfg = s.cfg ∧ step t = .fault .alreadyHalted

/-- MULTIPLY (41_alu.md): the low 8 bits of the unsigned product of the two registers' old values (the wrap is D1), no flag
written. -/
def Obligations.MultiplyStoresLowByteOfProduct : Prop :=
  ∀ (s : State) (i j : Fin 8), s.cfg.opcodes.Admissible →
    ∃ t, exec (.multiply (regByte i) (regByte j)) s = .next t ∧
      (t.reg i).toNat = ((s.reg i).toNat * (s.reg j).toNat) % 256 ∧ t.pc = s.pc + 3 ∧
      (∀ k, k ≠ i → t.reg k = s.reg k) ∧ t.flags = s.flags ∧ (∀ a, Memory.get t.mem a = Memory.get s.mem a) ∧
      t.out = s.out ∧ t.engine = s.engine ∧ t.cfg = s.cfg

/-- COMPARE (41_alu.md): Equal, Less and Greater say how the two registers compare as unsigned numbers, and nothing else
but pc changes. -/
def Obligations.CompareSetsFlagsByUnsignedOrder : Prop :=
  ∀ (s : State) (i j : Fin 8), s.cfg.opcodes.Admissible →
    ∃ t, exec (.compare (regByte i) (regByte j)) s = .next t ∧
      t.flags.e = decide (s.reg i = s.reg j) ∧
      t.flags.l = decide ((s.reg i).toNat < (s.reg j).toNat) ∧
      t.flags.g = decide ((s.reg j).toNat < (s.reg i).toNat) ∧ t.pc = s.pc + 3 ∧
      (∀ k, t.reg k = s.reg k) ∧ (∀ a, Memory.get t.mem a = Memory.get s.mem a) ∧
      t.out = s.out ∧ t.engine = s.engine ∧ t.cfg = s.cfg

/-- R146: the write port sets exactly one of {Equal, Less, Greater} for every pair of bytes, consistent with numeric
ordering; COMPARE writes the flags through it; the clear port is what `run()` leaves; the conditional jumps read E. -/
def Obligations.FlagPortsAreTotalAndExclusive : Prop :=
  (∀ a b : Byte,
    ((compareFlags a b).e = true ↔ a = b) ∧
    ((compareFlags a b).l = true ↔ a.toNat < b.toNat) ∧
    ((compareFlags a b).g = true ↔ b.toNat < a.toNat) ∧
    (compareFlags a b = ⟨true, false, false⟩ ∨ compareFlags a b = ⟨false, true, false⟩ ∨
      compareFlags a b = ⟨false, false, true⟩)) ∧
  (∀ (s t : State) (i j : Fin 8), exec (.compare (regByte i) (regByte j)) s = .next t →
    t.flags = compareFlags (s.reg i) (s.reg j)) ∧
  (∀ s t : State, s.run = some t → t.flags = ⟨false, false, false⟩) ∧
  (∀ (s t : State) (i : Fin 8), s.cfg.opcodes.Admissible →
    (exec (.jumpIfEqual (regByte i)) s = .next t → t.pc = if s.flags.e = true then (s.reg i).toNat else s.pc + 2) ∧
    (exec (.jumpIfNotEqual (regByte i)) s = .next t → t.pc = if s.flags.e = false then (s.reg i).toNat else s.pc + 2))

/-- PUSH (42_stack.md): SP goes down by 1 mod 256 and the cell at the new SP takes the register, read after the decrement (the
wrap is D6, the order D18; logs 13, 15). With STRICT_STACK it completes when SP is not 0, the bound of D7 (log 4). -/
def Obligations.PushStoresBelowStackPointer : Prop :=
  ∀ (s : State) (i : Fin 8), s.cfg.opcodes.Admissible → (s.cfg.strictStack = true → s.reg SP ≠ 0) →
    ∃ t, exec (.push (regByte i)) s = .next t ∧
      t.reg SP = s.reg SP - 1 ∧
      Memory.get t.mem (s.reg SP - 1).toNat = (if i = SP then s.reg SP - 1 else s.reg i) ∧ t.pc = s.pc + 2 ∧
      (∀ j, j ≠ SP → t.reg j = s.reg j) ∧ t.flags = s.flags ∧
      (∀ a, a ≠ (s.reg SP - 1).toNat → Memory.get t.mem a = Memory.get s.mem a) ∧
      t.out = s.out ∧ t.engine = s.engine ∧ t.cfg = s.cfg

/-- POP (42_stack.md): the register takes the cell at SP, then SP goes up by 1 mod 256; POP r7 increments the loaded value (the
wrap is D6, the order D18). With STRICT_STACK it completes when SP is below SP_TOP. No byte of memory changes. -/
def Obligations.PopLoadsFromStackPointer : Prop :=
  ∀ (s : State) (i : Fin 8), s.cfg.opcodes.Admissible →
    (s.cfg.strictStack = true → (s.reg SP).toNat < s.cfg.spTop.toNat) →
    ∃ t, exec (.pop (regByte i)) s = .next t ∧
      t.reg SP = (if i = SP then Memory.get s.mem (s.reg SP).toNat else s.reg SP) + 1 ∧
      (i ≠ SP → t.reg i = Memory.get s.mem (s.reg SP).toNat) ∧ t.pc = s.pc + 2 ∧
      (∀ j, j ≠ i → j ≠ SP → t.reg j = s.reg j) ∧ t.flags = s.flags ∧
      (∀ a, Memory.get t.mem a = Memory.get s.mem a) ∧
      t.out = s.out ∧ t.engine = s.engine ∧ t.cfg = s.cfg

/-- CALL (43_control_transfer.md): pushes the address after it and goes to the register, read after the push (D18, log 15). It
completes when the return address fits a cell (D5, log 14) and, with STRICT_STACK, SP is not 0, the bound of D7 (log 4); from
SP = 0 without STRICT_STACK it wraps to 255 (D6, log 13). -/
def Obligations.CallPushesReturnAddressAndJumps : Prop :=
  ∀ (s : State) (i : Fin 8), s.cfg.opcodes.Admissible → s.pc + 2 < memSize →
    (s.cfg.strictStack = true → s.reg SP ≠ 0) →
    ∃ t, exec (.call (regByte i)) s = .next t ∧
      t.reg SP = s.reg SP - 1 ∧
      (Memory.get t.mem (s.reg SP - 1).toNat).toNat = s.pc + 2 ∧
      t.pc = (if i = SP then s.reg SP - 1 else s.reg i).toNat ∧
      (∀ j, j ≠ SP → t.reg j = s.reg j) ∧ t.flags = s.flags ∧
      (∀ a, a ≠ (s.reg SP - 1).toNat → Memory.get t.mem a = Memory.get s.mem a) ∧
      t.out = s.out ∧ t.engine = s.engine ∧ t.cfg = s.cfg

/-- RETURN (43_control_transfer.md): goes to the byte at SP and pops it (the wrap of SP is D6). With STRICT_STACK it completes
when SP is below SP_TOP. -/
def Obligations.ReturnGoesToPoppedAddress : Prop :=
  ∀ s : State, s.cfg.opcodes.Admissible →
    (s.cfg.strictStack = true → (s.reg SP).toNat < s.cfg.spTop.toNat) →
    ∃ t, exec .ret s = .next t ∧
      t.pc = (Memory.get s.mem (s.reg SP).toNat).toNat ∧ t.reg SP = s.reg SP + 1 ∧
      (∀ j, j ≠ SP → t.reg j = s.reg j) ∧ t.flags = s.flags ∧
      (∀ a, Memory.get t.mem a = Memory.get s.mem a) ∧
      t.out = s.out ∧ t.engine = s.engine ∧ t.cfg = s.cfg

/-- JUMP, JUMP_IF_EQUAL and JUMP_IF_NOT_EQUAL (43_control_transfer.md): to the register when taken, exactly 2 past the opcode when
not, by E alone; nothing else changes. -/
def Obligations.JumpsSetOnlyThePc : Prop :=
  ∀ (s : State) (i : Fin 8), s.cfg.opcodes.Admissible →
    ∃ t u v, exec (.jump (regByte i)) s = .next t ∧ exec (.jumpIfEqual (regByte i)) s = .next u ∧
      exec (.jumpIfNotEqual (regByte i)) s = .next v ∧
      t.pc = (s.reg i).toNat ∧
      (s.flags.e = true → u.pc = (s.reg i).toNat ∧ v.pc = s.pc + 2) ∧
      (s.flags.e = false → u.pc = s.pc + 2 ∧ v.pc = (s.reg i).toNat) ∧
      ∀ w, w = t ∨ w = u ∨ w = v →
        (∀ j, w.reg j = s.reg j) ∧ w.flags = s.flags ∧ (∀ a, Memory.get w.mem a = Memory.get s.mem a) ∧
        w.out = s.out ∧ w.engine = s.engine ∧ w.cfg = s.cfg

/-! ### Stack and return-address faults -/

/-- With STRICT_STACK a PUSH or CALL that starts with SP = 0 raises StackOverflow; without it the fault does not exist, for any
instruction, and SP wraps to 255 (the bounds are the spec's decision D7, the wrap D6; logs 4, 13). -/
def Obligations.StrictPushAndCallOverflow : Prop :=
  (∀ (s : State) (i : Fin 8), s.cfg.strictStack = true → s.reg SP = 0 →
    TakesFault s (exec (.push (regByte i)) s) .stackOverflow 0 ∧
    (s.pc + 2 < memSize → TakesFault s (exec (.call (regByte i)) s) .stackOverflow 0)) ∧
  (∀ (i : Instr) (s t : State) (r : FaultRecord), s.engine = .running → exec i s = .next t → t.engine = .faulted r →
    r.kind = .stackOverflow →
      s.cfg.strictStack = true ∧ s.reg SP = 0 ∧ ∃ j : Fin 8, i = .push (regByte j) ∨ i = .call (regByte j)) ∧
  (∀ (s : State) (i : Fin 8), s.cfg.strictStack = false → s.reg SP = 0 →
    (∃ t, exec (.push (regByte i)) s = .next t ∧ t.engine = s.engine ∧ t.reg SP = 255) ∧
    (s.pc + 2 < memSize → ∃ t, exec (.call (regByte i)) s = .next t ∧ t.engine = s.engine ∧ t.reg SP = 255))

/-- With STRICT_STACK a POP or RETURN that starts with SP at or above SP_TOP raises StackUnderflow; without it the fault does
not exist, for any instruction, and the pop reads whatever is at M[SP], POP r7 then counting it up by 1 (D7, D18; logs 4, 15). -/
def Obligations.StrictPopAndReturnUnderflow : Prop :=
  (∀ s : State, s.cfg.strictStack = true → s.cfg.spTop.toNat ≤ (s.reg SP).toNat →
    (∀ i : Fin 8, TakesFault s (exec (.pop (regByte i)) s) .stackUnderflow (s.reg SP).toNat) ∧
    TakesFault s (exec .ret s) .stackUnderflow (s.reg SP).toNat) ∧
  (∀ (i : Instr) (s t : State) (r : FaultRecord), s.engine = .running → exec i s = .next t → t.engine = .faulted r →
    r.kind = .stackUnderflow →
      s.cfg.strictStack = true ∧ s.cfg.spTop.toNat ≤ (s.reg SP).toNat ∧ (i = .ret ∨ ∃ j : Fin 8, i = .pop (regByte j))) ∧
  (∀ s : State, s.cfg.opcodes.Admissible → s.cfg.strictStack = false →
    (∀ i : Fin 8, ∃ t, exec (.pop (regByte i)) s = .next t ∧ t.engine = s.engine ∧
      t.reg i = Memory.get s.mem (s.reg SP).toNat + (if i = SP then 1 else 0)) ∧
    ∃ t, exec .ret s = .next t ∧ t.engine = s.engine ∧ t.pc = (Memory.get s.mem (s.reg SP).toNat).toNat)

/-- CALL whose return address fits no cell raises ReturnAddressOverflow, under STRICT_STACK from SP = 0 too: the spec's decision
D5 (log 14), its order D9 (log 16); its stand at address 254, stepped, names 256. No other instruction raises it. -/
def Obligations.CallReturnAddressOverflows : Prop :=
  (∀ (s : State) (i : Fin 8), memSize ≤ s.pc + 2 →
    TakesFault s (exec (.call (regByte i)) s) .returnAddressOverflow (s.pc + 2)) ∧
  (∀ (s : State) (i : Fin 8), s.engine = .running → s.cfg.opcodes.Admissible → s.pc = 254 →
    s.InstructionAt (.call (regByte i)) → TakesFault s (step s) .returnAddressOverflow 256) ∧
  (∀ (i : Instr) (s t : State) (r : FaultRecord), s.engine = .running → exec i s = .next t → t.engine = .faulted r →
    r.kind = .returnAddressOverflow → memSize ≤ s.pc + 2 ∧ ∃ j : Fin 8, i = .call (regByte j))

/-- The ALU fails with UnsupportedAluOperation on an operation outside {ADD, MUL} (41_alu.md section 1), and no step of any machine
reaches it (60_exceptions.md section 1). That such an operation carries a number and the fault's info is that number is the
model's choice (log 23). -/
def Obligations.UnsupportedAluOperationIsUnreachable : Prop :=
  (∀ (n : Nat) (a b : Byte), aluApply (.other n) a b = raise .unsupportedAluOperation n) ∧
  (∀ (s t : State) (r : FaultRecord), step s = .next t → t.engine = .faulted r → r.kind ≠ .unsupportedAluOperation)

/-- A fault makes the engine state Faulted(kind, pc, info) with pc the faulting instruction's and info what the fault table
names for the kind, and saves or changes nothing else. (That this is the hardware's state after a fault is the spec's
decision D8; log 7.) -/
def Obligations.FaultEntryRecordsCauseAndNothingElse : Prop :=
  ∀ (s t : State) (r : FaultRecord), s.cfg.opcodes.Admissible → step s = .next t → t.engine = .faulted r →
    t = s.setEngine (.faulted r) ∧ r.pc = s.pc ∧
    match r.kind with
    | .unknownOpcode => r.info = (Memory.get s.mem s.pc).toNat
    | .memoryOutOfRange => memSize ≤ r.info ∧ ∃ k ≤ 2, r.info = s.pc + k
    | .registerOutOfRange => ∃ i, s.fetch = .ok i ∧ ∃ b ∈ i.registerOperands, 8 ≤ b.toNat ∧ r.info = b.toNat
    | .returnAddressOverflow => r.info = s.pc + 2
    | .unsupportedAluOperation => False
    | .stackOverflow => r.info = (s.reg SP).toNat
    | .stackUnderflow => r.info = (s.reg SP).toNat

/-! ### Ready, Halted and Faulted -/

/-- No step is enabled in Ready, Halted or Faulted (10_state.md section 4, D24), so a run that has ended stays ended: every later
run of one or more steps stops, by name (the naming is the model's, log 7). -/
def Obligations.EndedRunsStayEnded : Prop :=
  ∀ (s : State) (k : Nat),
    (s.engine = .ready → Host.Core.run Sys2Proof.core (k + 1) s = .fault Fault.notStarted) ∧
    (s.engine = .halted → Host.Core.run Sys2Proof.core (k + 1) s = .fault Fault.alreadyHalted) ∧
    (∀ r, s.engine = .faulted r → Host.Core.run Sys2Proof.core (k + 1) s = .fault Fault.alreadyFaulted)

/-- Only these events leave Running: executing HALT, and taking a fault (10_state.md section 4). -/
def Obligations.OnlyHaltAndFaultsLeaveRunning : Prop :=
  ∀ s t : State, s.cfg.opcodes.Admissible → step s = .next t →
    (t.engine = .halted ↔ s.fetch = .ok .halt) ∧
    (t.engine = .running ∨ t.engine = .halted ∨ ∃ r, t.engine = .faulted r)

/-! ### Whole-machine rules -/

/-- Only COMPARE writes a flag (10_state.md section 3's derived rule on who writes them). That a step which takes a fault, a
COMPARE with an illegal register among them, leaves the flags is the spec's decision D8 (log 7). -/
def Obligations.OnlyCompareWritesFlags : Prop :=
  ∀ s t : State, step s = .next t → t.flags ≠ s.flags → ∃ i j : Fin 8, s.fetch = .ok (.compare (regByte i) (regByte j))

/-- Only PUSH and CALL change memory, and only the cell below SP (20_memory.md section 1's table of accesses; that SP wraps is D6,
log 13). That a step which takes a fault leaves memory is the spec's decision D8 (log 7). -/
def Obligations.OnlyPushAndCallWriteMemory : Prop :=
  ∀ s t : State, step s = .next t → ∀ a, Memory.get t.mem a ≠ Memory.get s.mem a →
    a = (s.reg SP - 1).toNat ∧ ∃ i : Fin 8, s.fetch = .ok (.push (regByte i)) ∨ s.fetch = .ok (.call (regByte i))

/-- A step writes no register but those of the instruction's row in 10_state.md section 1's table: the first operand of
LOAD_IMMEDIATE, MULTIPLY and POP, and SP in PUSH, POP, CALL and RETURN. That a step which takes a fault leaves every register
is the spec's decision D8 (log 7). -/
def Obligations.OnlyNamedRegistersAreWritten : Prop :=
  ∀ s t : State, step s = .next t → ∀ j : Fin 8, t.reg j ≠ s.reg j →
    ∃ i, s.fetch = .ok i ∧
      ((∃ imm, i = .loadImmediate (regByte j) imm) ∨ (∃ b, i = .multiply (regByte j) b) ∨ i = .pop (regByte j) ∨
       (j = SP ∧ (i = .ret ∨ ∃ k : Fin 8, i = .push (regByte k) ∨ i = .pop (regByte k) ∨ i = .call (regByte k))))

/-- The output channel is empty at `run()`, nothing but a PRINT_REG of a legal register changes it and that only by appending its
line, and no instruction reads it: output already there does not change what a step does (10_state.md section 5). The line's
form is the spec's decision D22 (log 10). That PRINT_REG does append is PrintRegAppendsDecimalLine. -/
def Obligations.OutputChannelIsAppendOnlyAndUnread : Prop :=
  (∀ s t : State, s.run = some t → t.out = []) ∧
  (∀ s t : State, step s = .next t →
    t.out = s.out ∨ ∃ i : Fin 8, s.fetch = .ok (.printReg (regByte i)) ∧ t.out = s.out ++ [decimalLine (s.reg i)]) ∧
  (∀ (s : State) (before : List String),
    step { s with out := before ++ s.out } = viewOutcome (fun t => { t with out := before ++ t.out }) (step s))

/-- No instruction reads L or G (10_state.md section 3's derived rule): two machines that differ only in them step to machines that
differ only in them. -/
def Obligations.LessAndGreaterAreNeverRead : Prop :=
  ∀ s s' : State, s.withoutLessGreater = s'.withoutLessGreater →
    viewOutcome State.withoutLessGreater (step s) = viewOutcome State.withoutLessGreater (step s')

/-- No step changes the dispatch table or any other parameter (10_state.md section 5). -/
def Obligations.ConfigurationNeverChanges : Prop :=
  ∀ s t : State, step s = .next t → t.cfg = s.cfg

/-- After a step that takes no fault, the pc is the engine's advance, without wrapping, for every opcode whose "sets PC
directly" bit is 0; that bit is 1 exactly for CALL, RETURN, JUMP, JUMP_IF_EQUAL and JUMP_IF_NOT_EQUAL, whose handlers write
the pc; `run()` sets it to 0; an instruction may start at any address; a pc past 255 faults on the next fetch (that the pc does not wrap is D4, that the entry point is 0 is D16; logs 17, 21). -/
def Obligations.PcIsWrittenByAdvanceHandlersAndRun : Prop :=
  (∀ (s t : State) (i : Instr), s.cfg.opcodes.Admissible → s.fetch = .ok i → step s = .next t →
    (∀ r, t.engine ≠ .faulted r) → setsPcDirectly (s.cfg.opcodes.byteOf i.mnemonic) = false →
    t.pc = s.pc + instrSize (s.cfg.opcodes.byteOf i.mnemonic) ∧ t.pc ≤ 256) ∧
  (∀ (t : OpcodeMap) (m : Mnemonic), t.Admissible →
    (setsPcDirectly (t.byteOf m) = true ↔
      m = .call ∨ m = .ret ∨ m = .jump ∨ m = .jumpIfEqual ∨ m = .jumpIfNotEqual)) ∧
  (∀ s t : State, s.run = some t → t.pc = 0) ∧
  (∀ (s : State) (i : Instr), s.engine = .running → s.cfg.opcodes.Admissible → s.InstructionAt i → s.fetch = .ok i) ∧
  (∀ s : State, s.engine = .running → 255 < s.pc → TakesFault s (step s) .memoryOutOfRange s.pc)

/-! ### Invariants -/

/-- Every step keeps the invariant: canonical memory, pc in [0, 256], legal flags, admissible opcodes, a fault record that names
the pc. -/
def Obligations.EveryStepKeepsTheInvariant : Prop :=
  ∀ s t : State, s.Inv → step s = .next t → t.Inv

/-- The invariant holds at reset. -/
def Obligations.InvariantHoldsAtReset : Prop := State.reset.Inv

/-- Every machine constructed with admissible opcodes, whatever its uninitialised registers, loaded with any image and run, keeps
the invariant for as long as it runs, and no run of it is ever refused. -/
def Obligations.EveryLoadedRunKeepsTheInvariant : Prop :=
  ∀ (cfg : Config) (x : Regs) (pc : Nat) (flags : Flags) (image : List Byte) (s : State), cfg.opcodes.Admissible →
    (State.constructed cfg x pc flags).boot image = .ok s →
    ∀ k, (∀ t, Host.Core.run Sys2Proof.core k s = .next t → State.Inv t) ∧
      (∀ r, Host.Core.run Sys2Proof.core k s ≠ .refused r) ∧
      Host.Core.run Sys2Proof.core k s ≠ .fault Fault.inadmissibleOpcodeMap

/-! ### Laws over two instructions -/

/-- The round-trip law of 42_stack.md: PUSH then POP of the same register, neither faulting, leaves every register as it was, SP
included, for every register index and every starting SP, under either STRICT_STACK. -/
def Obligations.PushThenPopRestoresRegisters : Prop :=
  ∀ (s u t : State) (i : Fin 8), s.engine = .running →
    exec (.push (regByte i)) s = .next u → u.engine = .running →
    exec (.pop (regByte i)) u = .next t → t.engine = .running →
    ∀ j, t.reg j = s.reg j

/-- Return-address integrity (43_control_transfer.md): CALL then, from any state whose SP and whose byte at SP are what the call
left, RETURN resumes at the instruction after the CALL and restores SP. -/
def Obligations.CallThenReturnResumesAfterCall : Prop :=
  ∀ (s u v t : State) (i : Fin 8), s.cfg.opcodes.Admissible → s.engine = .running →
    exec (.call (regByte i)) s = .next u → u.engine = .running →
    v.cfg = u.cfg → v.engine = .running → v.reg SP = u.reg SP →
    Memory.get v.mem (v.reg SP).toNat = Memory.get u.mem (u.reg SP).toNat →
    exec .ret v = .next t → t.engine = .running →
    t.pc = s.pc + 2 ∧ t.reg SP = s.reg SP

/-! ### Memory -/

/-- Read and write (20_memory.md section 1) succeed at every address in [0, 256) and fault at every other; a write is read back, changes no other
address and nothing but memory; a read changes nothing, since it answers only a byte. -/
def Obligations.MemoryInterfaceReadsAndWrites : Prop :=
  ∀ s : State,
    (∀ a, a < 256 → (∃ v, s.memRead a = .ok v) ∧
      ∀ v, ∃ t, s.memWrite a v = .ok t ∧ t.memRead a = .ok v ∧ (∀ b, b ≠ a → t.memRead b = s.memRead b) ∧
        t = s.setMem t.mem) ∧
    (∀ a, 256 ≤ a → s.memRead a = raise .memoryOutOfRange a ∧ ∀ v, s.memWrite a v = raise .memoryOutOfRange a)

/-- Memories in canonical form that read the same at every address are the same data (the model's form, log 11). -/
def Obligations.CanonicalMemoriesAreEqualData : Prop :=
  ∀ m m' : Memory, Memory.wf m = true → Memory.wf m' = true → (∀ a, a < memSize → Memory.get m a = Memory.get m' a) → m = m'

/-! ### Launch, load and the host -/

/-- `run()` leaves the values of 10_state.md section 6: R0..R6 the launch values REG_INIT, whatever they are (D3), SP 244, PC 0 (D16),
flags clear, Running, no output, memory as loaded; and only Ready can be left by it. -/
def Obligations.RunSetsTheResetValues : Prop :=
  ∀ s : State,
    (s.engine = .ready → ∃ t, s.run = some t ∧
      (∀ k (h : k < 7), t.reg ⟨k, by omega⟩ = s.cfg.regInit[k]) ∧ t.reg SP = 244 ∧ t.pc = 0 ∧
      t.flags = ⟨false, false, false⟩ ∧ t.engine = .running ∧ t.out = [] ∧ t.mem = s.mem ∧ t.cfg = s.cfg) ∧
    (s.engine ≠ .ready → s.run = none)

/-- `load` puts byte i of the image at address i and leaves 0 everywhere else; an image of more than 256 bytes is refused (D14);
`run()` after a load of nothing with the default parameters is the reset state. -/
def Obligations.LoadPlacesTheImageFromZero : Prop :=
  ∀ (cfg : Config) (x : Regs) (pc : Nat) (flags : Flags) (image : List Byte),
    (image.length ≤ 256 → ∃ s, (State.constructed cfg x pc flags).load image = .ok s ∧ s.engine = .ready ∧
      ∀ a, Memory.get s.mem a = image.getD a 0) ∧
    (256 < image.length → (State.constructed cfg x pc flags).load image = .error (.imageTooLong image.length)) ∧
    (State.constructed (Config.launchDefaults OpcodeMap.ls8) x pc flags).boot [] = .ok State.reset

/-- The program file format: one 8-digit binary literal a line, most significant bit first (K6), a `#` comment and blank lines
ignored, gives the image's bytes in order (D25 for what is malformed). -/
def Obligations.ProgramFileGivesItsBytes : Prop :=
  ∀ (image : List Byte) (comment : List Char), (∀ c ∈ comment, c ≠ '\n') →
    parseProgram (image.flatMap fun b =>
      (List.range 8).map (fun k => if b.getMsbD k then '1' else '0') ++ [' ', '#'] ++ comment ++ ['\n', '\n']) = .ok image

/-- The host's exit status: 0 on HALT, non-zero and not 2 on every fault, whatever EXIT_CODE is (D10, log 5), 2 on a load failure;
a run that has not ended has none. -/
def Obligations.ExitStatusSeparatesHaltFaultAndLoadFailure : Prop :=
  ∀ s : State,
    (s.engine = .halted → s.exitStatus = some 0) ∧
    (∀ r, s.engine = .faulted r → ∃ n, s.exitStatus = some n ∧ n ≠ 0 ∧ n ≠ loadFailureStatus) ∧
    (s.engine = .running → s.exitStatus = none) ∧ loadFailureStatus = 2
end

