-- ==== Sys2Proof/Laws/State.lean ====
section
/-! SUPPORT. One lemma per field per state update, and the laws of register reads and writes. -/

namespace Sys2Proof.Machine

variable (s : State)

@[simp] theorem State.setReg_pc (i : Fin 8) (v : Byte) : (s.setReg i v).pc = s.pc := rfl
@[simp] theorem State.setReg_flags (i : Fin 8) (v : Byte) : (s.setReg i v).flags = s.flags := rfl
@[simp] theorem State.setReg_mem (i : Fin 8) (v : Byte) : (s.setReg i v).mem = s.mem := rfl
@[simp] theorem State.setReg_engine (i : Fin 8) (v : Byte) : (s.setReg i v).engine = s.engine := rfl
@[simp] theorem State.setReg_out (i : Fin 8) (v : Byte) : (s.setReg i v).out = s.out := rfl
@[simp] theorem State.setReg_cfg (i : Fin 8) (v : Byte) : (s.setReg i v).cfg = s.cfg := rfl

@[simp] theorem State.setPc_reg (p : Nat) (i : Fin 8) : (s.setPc p).reg i = s.reg i := rfl
@[simp] theorem State.setPc_pc (p : Nat) : (s.setPc p).pc = p := rfl
@[simp] theorem State.setPc_flags (p : Nat) : (s.setPc p).flags = s.flags := rfl
@[simp] theorem State.setPc_mem (p : Nat) : (s.setPc p).mem = s.mem := rfl
@[simp] theorem State.setPc_engine (p : Nat) : (s.setPc p).engine = s.engine := rfl
@[simp] theorem State.setPc_out (p : Nat) : (s.setPc p).out = s.out := rfl
@[simp] theorem State.setPc_cfg (p : Nat) : (s.setPc p).cfg = s.cfg := rfl

@[simp] theorem State.setFlags_reg (f : Flags) (i : Fin 8) : (s.setFlags f).reg i = s.reg i := rfl
@[simp] theorem State.setFlags_pc (f : Flags) : (s.setFlags f).pc = s.pc := rfl
@[simp] theorem State.setFlags_flags (f : Flags) : (s.setFlags f).flags = f := rfl
@[simp] theorem State.setFlags_mem (f : Flags) : (s.setFlags f).mem = s.mem := rfl
@[simp] theorem State.setFlags_engine (f : Flags) : (s.setFlags f).engine = s.engine := rfl
@[simp] theorem State.setFlags_out (f : Flags) : (s.setFlags f).out = s.out := rfl
@[simp] theorem State.setFlags_cfg (f : Flags) : (s.setFlags f).cfg = s.cfg := rfl

@[simp] theorem State.setMem_reg (m : Memory) (i : Fin 8) : (s.setMem m).reg i = s.reg i := rfl
@[simp] theorem State.setMem_pc (m : Memory) : (s.setMem m).pc = s.pc := rfl
@[simp] theorem State.setMem_flags (m : Memory) : (s.setMem m).flags = s.flags := rfl
@[simp] theorem State.setMem_mem (m : Memory) : (s.setMem m).mem = m := rfl
@[simp] theorem State.setMem_engine (m : Memory) : (s.setMem m).engine = s.engine := rfl
@[simp] theorem State.setMem_out (m : Memory) : (s.setMem m).out = s.out := rfl
@[simp] theorem State.setMem_cfg (m : Memory) : (s.setMem m).cfg = s.cfg := rfl

@[simp] theorem State.setEngine_reg (e : Engine) (i : Fin 8) : (s.setEngine e).reg i = s.reg i := rfl
@[simp] theorem State.setEngine_pc (e : Engine) : (s.setEngine e).pc = s.pc := rfl
@[simp] theorem State.setEngine_flags (e : Engine) : (s.setEngine e).flags = s.flags := rfl
@[simp] theorem State.setEngine_mem (e : Engine) : (s.setEngine e).mem = s.mem := rfl
@[simp] theorem State.setEngine_engine (e : Engine) : (s.setEngine e).engine = e := rfl
@[simp] theorem State.setEngine_out (e : Engine) : (s.setEngine e).out = s.out := rfl
@[simp] theorem State.setEngine_cfg (e : Engine) : (s.setEngine e).cfg = s.cfg := rfl

@[simp] theorem State.emit_reg (l : String) (i : Fin 8) : (s.emit l).reg i = s.reg i := rfl
@[simp] theorem State.emit_pc (l : String) : (s.emit l).pc = s.pc := rfl
@[simp] theorem State.emit_flags (l : String) : (s.emit l).flags = s.flags := rfl
@[simp] theorem State.emit_mem (l : String) : (s.emit l).mem = s.mem := rfl
@[simp] theorem State.emit_engine (l : String) : (s.emit l).engine = s.engine := rfl
@[simp] theorem State.emit_out (l : String) : (s.emit l).out = s.out ++ [l] := rfl
@[simp] theorem State.emit_cfg (l : String) : (s.emit l).cfg = s.cfg := rfl

@[simp] theorem State.takeFault_reg (r : Raised) (i : Fin 8) : (s.takeFault r).reg i = s.reg i := rfl
@[simp] theorem State.takeFault_pc (r : Raised) : (s.takeFault r).pc = s.pc := rfl
@[simp] theorem State.takeFault_flags (r : Raised) : (s.takeFault r).flags = s.flags := rfl
@[simp] theorem State.takeFault_mem (r : Raised) : (s.takeFault r).mem = s.mem := rfl
@[simp] theorem State.takeFault_engine (r : Raised) :
    (s.takeFault r).engine = .faulted { kind := r.kind, pc := s.pc, info := r.info } := rfl
@[simp] theorem State.takeFault_out (r : Raised) : (s.takeFault r).out = s.out := rfl
@[simp] theorem State.takeFault_cfg (r : Raised) : (s.takeFault r).cfg = s.cfg := rfl

/-- A write to a register is read back. -/
@[simp] theorem State.setReg_reg_same (i : Fin 8) (v : Byte) : (s.setReg i v).reg i = v := by
  simp [State.setReg, State.reg]

/-- A read after a write to any register. -/
theorem State.setReg_reg (i j : Fin 8) (v : Byte) : (s.setReg i v).reg j = if i = j then v else s.reg j := by
  simp [State.setReg, State.reg, Vector.getElem_set, Fin.ext_iff]

/-- A write to one register leaves every other alone. -/
theorem State.setReg_reg_ne {i j : Fin 8} (v : Byte) (h : i ≠ j) : (s.setReg i v).reg j = s.reg j := by
  simp [State.setReg_reg, h]

end Sys2Proof.Machine
end

