-- ==== Sys2Proof/Laws/Memory.lean ====
section
/-! SUPPORT. Memory: a read after a write, and every operation keeps the canonical form. -/

namespace Sys2Proof.Machine

@[simp] theorem Memory.get_nil (a : Nat) : Memory.get [] a = Memory.blank := rfl

theorem Memory.get_erase (m : Memory) (b a : Nat) :
    Memory.get (Memory.erase m b) a = if a = b then Memory.blank else Memory.get m a := by
  induction m with
  | nil => simp [Memory.erase]
  | cons c m ih =>
    obtain ⟨k, v⟩ := c
    simp only [Memory.erase] at ih ⊢
    by_cases hk : k = b
    · subst hk
      rw [List.filter_cons_of_neg (by simp)]
      by_cases ha : a = k
      · simpa [ha] using ih
      · simpa [ha, Memory.get, Ne.symm ha] using ih
    · rw [List.filter_cons_of_pos (by simpa using hk)]
      by_cases hka : k = a
      · subst hka; simp [Memory.get, hk]
      · simpa [Memory.get, hka] using ih

theorem Memory.get_insert (m : Memory) (b : Nat) (v : Byte) (hb : ∀ c ∈ m, c.1 ≠ b) (a : Nat) :
    Memory.get (Memory.insert b v m) a = if a = b then v else Memory.get m a := by
  induction m with
  | nil => simp only [Memory.insert, Memory.get, eq_comm]
  | cons c m ih =>
    obtain ⟨k, w⟩ := c
    have hk : k ≠ b := hb (k, w) (by simp)
    have ih := ih fun c hc => hb c (by simp [hc])
    simp only [Memory.insert]
    split
    · simp only [Memory.get, eq_comm]
    · by_cases hka : k = a
      · subst hka; simp [Memory.get, hk]
      · simpa [Memory.get, hka] using ih

theorem Memory.erase_ne (m : Memory) (b : Nat) : ∀ c ∈ Memory.erase m b, c.1 ≠ b := by
  simp [Memory.erase]

/-- A read after a write: the written byte at its address, every other byte as before. -/
theorem Memory.get_set (m : Memory) (b : Nat) (v : Byte) (a : Nat) :
    Memory.get (Memory.set m b v) a = if a = b then v else Memory.get m a := by
  unfold Memory.set
  split
  · rename_i h; rw [Memory.get_erase, h]
  · rw [Memory.get_insert _ _ _ (Memory.erase_ne m b), Memory.get_erase]; split <;> simp_all

@[simp] theorem Memory.get_set_same (m : Memory) (b : Nat) (v : Byte) : Memory.get (Memory.set m b v) b = v := by
  simp [Memory.get_set]

theorem Memory.get_set_ne (m : Memory) {b a : Nat} (v : Byte) (h : a ≠ b) :
    Memory.get (Memory.set m b v) a = Memory.get m a := by
  simp [Memory.get_set, h]

/-! ### The canonical form -/

theorem Memory.wfFrom_mono {lo lo' : Nat} (h : lo' ≤ lo) : ∀ {m : Memory}, Memory.wfFrom lo m = true → Memory.wfFrom lo' m = true
  | [], _ => rfl
  | (a, v) :: m, hm => by
    simp only [Memory.wfFrom, Bool.and_eq_true, decide_eq_true_eq] at hm ⊢
    exact ⟨⟨⟨by omega, hm.1.1.2⟩, hm.1.2⟩, hm.2⟩

theorem Memory.wfFrom_erase (b : Nat) : ∀ (m : Memory) (lo : Nat), Memory.wfFrom lo m = true → Memory.wfFrom lo (Memory.erase m b) = true
  | [], _, _ => rfl
  | (a, v) :: m, lo, hm => by
    simp only [Memory.wfFrom, Bool.and_eq_true, decide_eq_true_eq] at hm
    have ih := Memory.wfFrom_erase b m (a + 1) hm.2
    simp only [Memory.erase] at ih ⊢
    by_cases hab : a = b
    · rw [List.filter_cons_of_neg (by simpa using hab)]
      exact Memory.wfFrom_mono (by omega) ih
    · rw [List.filter_cons_of_pos (by simpa using hab)]
      simp only [Memory.wfFrom, Bool.and_eq_true, decide_eq_true_eq]
      exact ⟨hm.1, ih⟩

theorem Memory.wfFrom_insert {b : Nat} {v : Byte} (hb : b < memSize) (hv : v ≠ Memory.blank) :
    ∀ (m : Memory) (lo : Nat), lo ≤ b → (∀ c ∈ m, c.1 ≠ b) → Memory.wfFrom lo m = true →
      Memory.wfFrom lo (Memory.insert b v m) = true
  | [], lo, hlo, _, _ => by simp [Memory.insert, Memory.wfFrom, hlo, hb, hv]
  | (a, w) :: m, lo, hlo, hne, hm => by
    have hab : a ≠ b := hne (a, w) (by simp)
    simp only [Memory.wfFrom, Bool.and_eq_true, decide_eq_true_eq] at hm
    simp only [Memory.insert]
    split
    · simp only [Memory.wfFrom, Bool.and_eq_true, decide_eq_true_eq]
      exact ⟨⟨⟨hlo, hb⟩, hv⟩, ⟨⟨by omega, hm.1.1.2⟩, hm.1.2⟩, hm.2⟩
    · simp only [Memory.wfFrom, Bool.and_eq_true, decide_eq_true_eq]
      exact ⟨hm.1, Memory.wfFrom_insert hb hv m (a + 1) (by omega) (fun c hc => hne c (by simp [hc])) hm.2⟩

/-- Writing a byte inside the address space keeps the canonical form. -/
theorem Memory.wf_set {m : Memory} (hm : Memory.wf m = true) {b : Nat} (hb : b < memSize) (v : Byte) :
    Memory.wf (Memory.set m b v) = true := by
  unfold Memory.set
  have he := Memory.wfFrom_erase b m 0 hm
  split
  · exact he
  · rename_i hv
    exact Memory.wfFrom_insert hb hv _ 0 (Nat.zero_le _) (Memory.erase_ne m b) he

/-- Storing a run of bytes keeps the canonical form. -/
theorem Memory.wf_place (bs : List Byte) : ∀ {m : Memory} (a : Nat), Memory.wf m = true → Memory.wf (Memory.place m a bs) = true := by
  induction bs with
  | nil => intro m a hm; exact hm
  | cons b bs ih =>
    intro m a hm
    simp only [Memory.place]
    split
    · rename_i h; exact ih _ (Memory.wf_set hm h b)
    · exact ih _ hm

/-- Reset's memory has the canonical form. -/
theorem Memory.wf_reset : Memory.wf State.reset.mem = true := rfl

/-- No listed address below the bound is present. -/
theorem Memory.get_of_wfFrom_lt : ∀ {m : Memory} {lo a : Nat}, Memory.wfFrom lo m = true → a < lo → Memory.get m a = Memory.blank
  | [], _, _, _, _ => rfl
  | (k, v) :: m, lo, a, hm, ha => by
    simp only [Memory.wfFrom, Bool.and_eq_true, decide_eq_true_eq] at hm
    have hk : k ≠ a := by omega
    simp only [Memory.get, hk, if_false]
    exact Memory.get_of_wfFrom_lt hm.2 (by omega)

/-! ### Runs of bytes -/

theorem Memory.get_place_lt (bs : List Byte) : ∀ (m : Memory) (a b : Nat), b < a → Memory.get (Memory.place m a bs) b = Memory.get m b := by
  induction bs with
  | nil => intro m a b _; rfl
  | cons c bs ih =>
    intro m a b h
    simp only [Memory.place]
    rw [ih _ _ _ (by omega)]
    split
    · exact Memory.get_set_ne _ _ (by omega)
    · rfl

end Sys2Proof.Machine
end

