-- ==== Sys2Proof/Laws/Decode.lean ====
section
/-! SUPPORT. The decoder's parts: the dispatch table, operand bytes, assembling an instruction, the fetch window. -/

namespace Sys2Proof

theorem Mnemonic.mem_all (m : Mnemonic) : m ∈ Mnemonic.all := by cases m <;> decide

/-- R80's own values meet R81. -/
theorem OpcodeMap.ls8_admissible : OpcodeMap.ls8.Admissible := by decide

theorem OpcodeMap.Admissible.operandCount_byteOf {t : OpcodeMap} (h : t.Admissible) (m : Mnemonic) :
    operandCount (t.byteOf m) = m.arity := h.1 m m.mem_all

theorem OpcodeMap.Admissible.instrSize_byteOf {t : OpcodeMap} (h : t.Admissible) (m : Mnemonic) :
    instrSize (t.byteOf m) = m.arity + 1 := by rw [instrSize, h.operandCount_byteOf]

theorem OpcodeMap.Admissible.setsPc_byteOf {t : OpcodeMap} (h : t.Admissible) (m : Mnemonic) :
    setsPcDirectly (t.byteOf m) = m.setsPc := h.2.1 m m.mem_all

theorem OpcodeMap.lookup_some {t : OpcodeMap} {op : Byte} {m : Mnemonic} (h : t.lookup op = some m) : t.byteOf m = op := by
  simpa using List.find?_some h

theorem OpcodeMap.lookup_eq_none {t : OpcodeMap} {op : Byte} : t.lookup op = none ↔ ∀ m, t.byteOf m ≠ op := by
  simp only [OpcodeMap.lookup, List.find?_eq_none, beq_iff_eq]
  exact ⟨fun h m => h m m.mem_all, fun h m _ => h m⟩

theorem OpcodeMap.Admissible.lookup_byteOf {t : OpcodeMap} (h : t.Admissible) (m : Mnemonic) : t.lookup (t.byteOf m) = some m := by
  cases hl : t.lookup (t.byteOf m) with
  | none => exact absurd rfl (OpcodeMap.lookup_eq_none.mp hl m)
  | some n => rw [h.2.2 n n.mem_all m m.mem_all (OpcodeMap.lookup_some hl)]

theorem takeOperands_append (os : List Byte) : ∀ (k : Nat) (rest : List Byte), takeOperands os.length k (os ++ rest) = .ok (os, rest) := by
  induction os with
  | nil => intro k rest; rfl
  | cons b os ih => intro k rest; simp [takeOperands, ih]

theorem takeOperands_ok : ∀ {n k : Nat} {bs os rest : List Byte}, takeOperands n k bs = .ok (os, rest) → os.length = n ∧ os ++ rest = bs
  | 0, _, bs, os, rest, h => by simp only [takeOperands, Except.ok.injEq, Prod.mk.injEq] at h; simp [← h.1, h.2]
  | n + 1, k, [], os, rest, h => by simp [takeOperands] at h
  | n + 1, k, b :: bs, os, rest, h => by
    simp only [takeOperands] at h
    split at h
    · rename_i os' rest' he
      have ih := takeOperands_ok he
      simp only [Except.ok.injEq, Prod.mk.injEq] at h
      obtain ⟨rfl, rfl⟩ := h
      exact ⟨by simp [ih.1], by simp [ih.2]⟩
    · simp at h

/-- A failed operand take names the first byte that is not there. -/
theorem takeOperands_error : ∀ {n k : Nat} {bs : List Byte} {e : DecodeError}, takeOperands n k bs = .error e → e = .missing (k + bs.length) ∧ bs.length < n
  | 0, _, _, _, h => by simp [takeOperands] at h
  | n + 1, k, [], e, h => by simp only [takeOperands, Except.error.injEq] at h; simp [← h]
  | n + 1, k, b :: bs, e, h => by
    simp only [takeOperands] at h
    split at h
    · simp at h
    · rename_i e' he
      have ih := takeOperands_error he
      simp only [Except.error.injEq] at h
      subst h
      exact ⟨by rw [ih.1]; congr 1; simp only [List.length_cons]; omega, by simp only [List.length_cons]; omega⟩

theorem takeOperands_short : ∀ {n k : Nat} {bs : List Byte}, bs.length < n → takeOperands n k bs = .error (.missing (k + bs.length))
  | 0, _, _, h => by omega
  | n + 1, k, [], _ => by simp [takeOperands]
  | n + 1, k, b :: bs, h => by
    have h' : bs.length < n := by simpa using h
    simp only [takeOperands, takeOperands_short h', List.length_cons]
    congr 2; omega

@[simp] theorem Instr.operands_length (i : Instr) : i.operands.length = i.mnemonic.arity := by cases i <;> rfl

@[simp] theorem Instr.assemble_operands (i : Instr) : i.mnemonic.assemble i.operands = some i := by cases i <;> rfl

/-- Assembling keeps the table entry and the operand bytes. -/
theorem Mnemonic.assemble_some {m : Mnemonic} {os : List Byte} {i : Instr} (h : m.assemble os = some i) :
    i.mnemonic = m ∧ i.operands = os := by
  cases m <;> match os, h with
  | [], h => simp_all [Mnemonic.assemble, formatN, formatR, formatRR] <;> subst h <;> exact ⟨rfl, rfl⟩
  | [_], h => simp_all [Mnemonic.assemble, formatN, formatR, formatRR] <;> subst h <;> exact ⟨rfl, rfl⟩
  | [_, _], h => simp_all [Mnemonic.assemble, formatN, formatR, formatRR] <;> subst h <;> exact ⟨rfl, rfl⟩
  | _ :: _ :: _ :: _, h => simp [Mnemonic.assemble, formatN, formatR, formatRR] at h

/-- As many operand bytes as the format has do assemble. -/
theorem Mnemonic.assemble_of_length {m : Mnemonic} {os : List Byte} (h : os.length = m.arity) : ∃ i, m.assemble os = some i := by
  cases m <;> match os, h with
  | [], h => simp_all [Mnemonic.assemble, Mnemonic.arity, formatN]
  | [_], h => simp_all [Mnemonic.assemble, Mnemonic.arity, formatR]
  | [_, _], h => simp_all [Mnemonic.assemble, Mnemonic.arity, formatRR]
  | _ :: _ :: _ :: _, h => simp [Mnemonic.arity] at h

/-- What the decoder does, said once: an empty window, an unregistered opcode, a missing operand byte, a map that breaks
R81 (a), or an instruction whose opcode and operand bytes are the first bytes. -/
theorem decodeWith_cases (t : OpcodeMap) (bytes : List Byte) :
    (bytes = [] ∧ decodeWith t bytes = .error (.missing 0)) ∨
    ∃ op tail, bytes = op :: tail ∧
      ((t.lookup op = none ∧ decodeWith t bytes = .error (.unknownOpcode op)) ∨
       ∃ m, t.lookup op = some m ∧
        ((tail.length < operandCount op ∧ decodeWith t bytes = .error (.missing (1 + tail.length))) ∨
         (operandCount op ≠ m.arity ∧ decodeWith t bytes = .error (.layoutMismatch op)) ∨
         ∃ i rest, i.mnemonic = m ∧ tail = i.operands ++ rest ∧ decodeWith t bytes = .ok (i, rest))) := by
  cases bytes with
  | nil => exact .inl ⟨rfl, rfl⟩
  | cons op tail =>
    refine .inr ⟨op, tail, rfl, ?_⟩
    cases hl : t.lookup op with
    | none => exact .inl ⟨rfl, by simp [decodeWith, hl]⟩
    | some m =>
      refine .inr ⟨m, rfl, ?_⟩
      cases ht : takeOperands (operandCount op) 1 tail with
      | error e =>
        obtain ⟨rfl, hlt⟩ := takeOperands_error ht
        exact .inl ⟨hlt, by simp [decodeWith, hl, ht]⟩
      | ok p =>
        obtain ⟨os, rest⟩ := p
        obtain ⟨hlen, happ⟩ := takeOperands_ok ht
        cases ha : m.assemble os with
        | none =>
          refine .inr (.inl ⟨fun hc => ?_, by simp [decodeWith, hl, ht, ha]⟩)
          obtain ⟨i, hi⟩ := Mnemonic.assemble_of_length (hlen.trans hc)
          rw [hi] at ha; simp at ha
        | some i =>
          obtain ⟨hm, ho⟩ := Mnemonic.assemble_some ha
          exact .inr (.inr ⟨i, rest, hm, by rw [ho, happ], by simp [decodeWith, hl, ht, ha]⟩)

namespace Machine

/-- The fetch window holds the bytes at consecutive addresses, as far as memory goes. -/
theorem Memory.window_getElem? (m : Memory) : ∀ (n a k : Nat),
    (Memory.window m a n)[k]? = if k < n ∧ a + k < memSize then some (Memory.get m (a + k)) else none
  | 0, a, k => by simp [Memory.window]
  | n + 1, a, k => by
    simp only [Memory.window]
    split
    · cases k with
      | zero => simp_all
      | succ k =>
        rw [List.getElem?_cons_succ, Memory.window_getElem? m n (a + 1) k]
        simp only [Nat.add_lt_add_iff_right, show a + 1 + k = a + (k + 1) by omega]
    · rename_i h
      have : ¬ (a + k < memSize) := by omega
      simp [this]

theorem Memory.window_length (m : Memory) : ∀ (n a : Nat), (Memory.window m a n).length = min n (memSize - a)
  | 0, a => by simp [Memory.window]
  | n + 1, a => by
    simp only [Memory.window]
    split
    · simp only [List.length_cons, Memory.window_length m n (a + 1)]; omega
    · simp only [List.length_nil]; omega

end Machine
end Sys2Proof
end

