-- ==== Sys2Proof/Laws/Ops.lean ====
section
/-! SUPPORT. One lemma per shared operation, saying once everything it does. -/

namespace Sys2Proof.Machine

/-! ### Operands -/

@[simp] theorem regIndex_regByte (i : Fin 8) : regIndex (regByte i) = .ok i := by revert i; decide

theorem regByte_toNat (i : Fin 8) : (regByte i).toNat = i.val := by revert i; decide

theorem regIndex_illegal {b : Byte} (h : 8 ≤ b.toNat) : regIndex b = raise .registerOutOfRange b.toNat := by
  simp [regIndex, Nat.not_lt.mpr h]

/-- A byte names a register, and is that register's byte, or is an illegal index. -/
theorem regIndex_cases (b : Byte) : (∃ i, b = regByte i) ∨ 8 ≤ b.toNat := by
  by_cases h : b.toNat < 8
  · exact .inl ⟨⟨b.toNat, h⟩, by apply BitVec.eq_of_toNat_eq; rw [regByte_toNat]⟩
  · exact .inr (by omega)

/-! ### Memory access -/

theorem State.memRead_ok (s : State) {a : Nat} (h : a < memSize) : s.memRead a = .ok (Memory.get s.mem a) := by
  simp [State.memRead, h]

theorem State.memWrite_ok (s : State) {a : Nat} (h : a < memSize) (v : Byte) :
    s.memWrite a v = .ok (s.setMem (Memory.set s.mem a v)) := by
  simp [State.memWrite, h]

/-- A register value is always an address inside memory (20_memory.md R66). -/
theorem byte_lt_memSize (b : Byte) : b.toNat < memSize := b.isLt

/-! ### The stack -/

@[simp] theorem State.decSp_reg_sp (s : State) : s.decSp.reg SP = s.reg SP - 1 := by simp [State.decSp]
@[simp] theorem State.incSp_reg_sp (s : State) : s.incSp.reg SP = s.reg SP + 1 := by simp [State.incSp]

theorem State.decSp_reg (s : State) (j : Fin 8) : s.decSp.reg j = if j = SP then s.reg SP - 1 else s.reg j := by
  simp only [State.decSp, State.setReg_reg, eq_comm]
theorem State.incSp_reg (s : State) (j : Fin 8) : s.incSp.reg j = if j = SP then s.reg SP + 1 else s.reg j := by
  simp only [State.incSp, State.setReg_reg, eq_comm]

@[simp] theorem State.decSp_pc (s : State) : s.decSp.pc = s.pc := rfl
@[simp] theorem State.decSp_flags (s : State) : s.decSp.flags = s.flags := rfl
@[simp] theorem State.decSp_mem (s : State) : s.decSp.mem = s.mem := rfl
@[simp] theorem State.decSp_engine (s : State) : s.decSp.engine = s.engine := rfl
@[simp] theorem State.decSp_out (s : State) : s.decSp.out = s.out := rfl
@[simp] theorem State.decSp_cfg (s : State) : s.decSp.cfg = s.cfg := rfl
@[simp] theorem State.incSp_pc (s : State) : s.incSp.pc = s.pc := rfl
@[simp] theorem State.incSp_flags (s : State) : s.incSp.flags = s.flags := rfl
@[simp] theorem State.incSp_mem (s : State) : s.incSp.mem = s.mem := rfl
@[simp] theorem State.incSp_engine (s : State) : s.incSp.engine = s.engine := rfl
@[simp] theorem State.incSp_out (s : State) : s.incSp.out = s.out := rfl
@[simp] theorem State.incSp_cfg (s : State) : s.incSp.cfg = s.cfg := rfl

@[simp] theorem State.halt_pc (s : State) : s.halt.pc = s.pc := rfl
@[simp] theorem State.halt_reg (s : State) (j : Fin 8) : s.halt.reg j = s.reg j := rfl
@[simp] theorem State.halt_flags (s : State) : s.halt.flags = s.flags := rfl
@[simp] theorem State.halt_mem (s : State) : s.halt.mem = s.mem := rfl
@[simp] theorem State.halt_engine (s : State) : s.halt.engine = .halted := rfl
@[simp] theorem State.halt_out (s : State) : s.halt.out = s.out := rfl
@[simp] theorem State.halt_cfg (s : State) : s.halt.cfg = s.cfg := rfl

/-- A push never leaves memory: it writes the cell below SP. -/
theorem State.pushValue_eq (s : State) (value : State → Byte) :
    s.pushValue value = .ok (s.decSp.setMem (Memory.set s.mem (s.reg SP - 1).toNat (value s.decSp))) := by
  simp only [State.pushValue, State.memWrite_ok _ (byte_lt_memSize _), State.decSp_reg_sp, State.decSp_mem]

/-- A pop never leaves memory: it reads the cell at SP. -/
theorem State.stackTop_eq (s : State) : s.stackTop = .ok (Memory.get s.mem (s.reg SP).toNat) :=
  s.memRead_ok (byte_lt_memSize _)

theorem State.checkOverflow_ok {s : State} (h : s.cfg.strictStack = true → s.reg SP ≠ 0) : s.checkOverflow = .ok () := by
  have : ¬ (s.cfg.strictStack = true ∧ s.reg SP = 0) := fun hc => h hc.1 hc.2
  simp only [State.checkOverflow, if_neg this]

theorem State.checkOverflow_raise {s : State} (h : s.cfg.strictStack = true) (h0 : s.reg SP = 0) :
    s.checkOverflow = raise .stackOverflow 0 := by
  simp [State.checkOverflow, h, h0]

theorem State.checkUnderflow_ok {s : State} (h : s.cfg.strictStack = true → (s.reg SP).toNat < s.cfg.spTop.toNat) :
    s.checkUnderflow = .ok () := by
  have : ¬ (s.cfg.strictStack = true ∧ s.cfg.spTop.toNat ≤ (s.reg SP).toNat) := fun hc => absurd (h hc.1) (by omega)
  simp only [State.checkUnderflow, if_neg this]

theorem State.checkUnderflow_raise {s : State} (h : s.cfg.strictStack = true) (h0 : s.cfg.spTop.toNat ≤ (s.reg SP).toNat) :
    s.checkUnderflow = raise .stackUnderflow (s.reg SP).toNat := by
  simp [State.checkUnderflow, h, h0]

theorem checkReturnAddress_ok {ret : Nat} (h : ret < memSize) : checkReturnAddress ret = .ok () := by
  simp [checkReturnAddress, Nat.not_le.mpr h]

theorem checkReturnAddress_raise {ret : Nat} (h : memSize ≤ ret) : checkReturnAddress ret = raise .returnAddressOverflow ret := by
  simp [checkReturnAddress, h]

/-! ### The engine's advance and the end of a step -/

@[simp] theorem State.advance_reg (s : State) (op : Byte) (j : Fin 8) : (s.advance op).reg j = s.reg j := by
  unfold State.advance; split <;> rfl
@[simp] theorem State.advance_flags (s : State) (op : Byte) : (s.advance op).flags = s.flags := by
  unfold State.advance; split <;> rfl
@[simp] theorem State.advance_mem (s : State) (op : Byte) : (s.advance op).mem = s.mem := by
  unfold State.advance; split <;> rfl
@[simp] theorem State.advance_engine (s : State) (op : Byte) : (s.advance op).engine = s.engine := by
  unfold State.advance; split <;> rfl
@[simp] theorem State.advance_out (s : State) (op : Byte) : (s.advance op).out = s.out := by
  unfold State.advance; split <;> rfl
@[simp] theorem State.advance_cfg (s : State) (op : Byte) : (s.advance op).cfg = s.cfg := by
  unfold State.advance; split <;> rfl

theorem State.advance_pc (s : State) (op : Byte) :
    (s.advance op).pc = if setsPcDirectly op then s.pc else s.pc + instrSize op := by
  unfold State.advance; split <;> rfl

@[simp] theorem complete_ok (m : Mnemonic) (s s' : State) :
    complete m s (.ok s') = .next (s'.advance (s.cfg.opcodes.byteOf m)) := rfl

@[simp] theorem complete_raise (m : Mnemonic) (s : State) (k : FaultKind) (n : Nat) :
    complete m s (raise k n) = .next (s.takeFault ⟨k, n⟩) := rfl

/-- A step that reached its handler always answers a next state. -/
theorem complete_next (m : Mnemonic) (s : State) (r : Except Raised State) : ∃ t, complete m s r = .next t := by
  cases r <;> exact ⟨_, rfl⟩

end Sys2Proof.Machine
end

