-- ==== Sys2Proof/Laws/Exec.lean ====
section
/-! SUPPORT. What each instruction does on each kind of operand, said once, and the inversion lemma of `exec`. -/

namespace Sys2Proof.Machine

/-! ### On legal operands -/

theorem exec_printReg (i : Fin 8) (s : State) :
    exec (.printReg (regByte i)) s = .next ((s.emit (decimalLine (s.reg i))).advance (s.cfg.opcodes.byteOf .printReg)) := by
  simp [exec, execPrintReg, bind, Except.bind]

theorem exec_loadImmediate (i : Fin 8) (imm : Byte) (s : State) :
    exec (.loadImmediate (regByte i) imm) s = .next ((s.setReg i imm).advance (s.cfg.opcodes.byteOf .loadImmediate)) := by
  simp [exec, execLoadImmediate, bind, Except.bind]

theorem exec_halt (s : State) : exec .halt s = .next (s.halt.advance (s.cfg.opcodes.byteOf .halt)) := rfl

theorem exec_multiply (i j : Fin 8) (s : State) :
    exec (.multiply (regByte i) (regByte j)) s =
      .next ((s.setReg i (BitVec.ofNat 8 ((s.reg i).toNat * (s.reg j).toNat))).advance (s.cfg.opcodes.byteOf .multiply)) := by
  simp [exec, execMultiply, aluApply, bind, Except.bind]

theorem exec_compare (i j : Fin 8) (s : State) :
    exec (.compare (regByte i) (regByte j)) s =
      .next ((s.setFlags (compareFlags (s.reg i) (s.reg j))).advance (s.cfg.opcodes.byteOf .compare)) := by
  simp [exec, execCompare, bind, Except.bind]

theorem exec_push (i : Fin 8) {s : State} (h : s.cfg.strictStack = true → s.reg SP ≠ 0) :
    exec (.push (regByte i)) s =
      .next ((s.decSp.setMem (Memory.set s.mem (s.reg SP - 1).toNat (s.decSp.reg i))).advance (s.cfg.opcodes.byteOf .push)) := by
  simp [exec, execPush, State.checkOverflow_ok h, State.pushValue_eq, bind, Except.bind]

theorem exec_push_overflow (i : Fin 8) {s : State} (h : s.cfg.strictStack = true) (h0 : s.reg SP = 0) :
    exec (.push (regByte i)) s = .next (s.takeFault ⟨.stackOverflow, 0⟩) := by
  simp only [exec, execPush, regIndex_regByte, State.checkOverflow_raise h h0, bind, Except.bind]; rfl

theorem exec_pop (i : Fin 8) {s : State} (h : s.cfg.strictStack = true → (s.reg SP).toNat < s.cfg.spTop.toNat) :
    exec (.pop (regByte i)) s =
      .next ((s.setReg i (Memory.get s.mem (s.reg SP).toNat)).incSp.advance (s.cfg.opcodes.byteOf .pop)) := by
  simp [exec, execPop, State.checkUnderflow_ok h, State.stackTop_eq, bind, Except.bind]

theorem exec_pop_underflow (i : Fin 8) {s : State} (h : s.cfg.strictStack = true) (h0 : s.cfg.spTop.toNat ≤ (s.reg SP).toNat) :
    exec (.pop (regByte i)) s = .next (s.takeFault ⟨.stackUnderflow, (s.reg SP).toNat⟩) := by
  simp only [exec, execPop, regIndex_regByte, State.checkUnderflow_raise h h0, bind, Except.bind]; rfl

theorem exec_call (i : Fin 8) {s : State} (hr : s.pc + 2 < memSize) (h : s.cfg.strictStack = true → s.reg SP ≠ 0) :
    exec (.call (regByte i)) s =
      .next (((s.decSp.setMem (Memory.set s.mem (s.reg SP - 1).toNat (BitVec.ofNat 8 (s.pc + 2)))).setPc
        (s.decSp.reg i).toNat).advance (s.cfg.opcodes.byteOf .call)) := by
  simp [exec, execCall, checkReturnAddress_ok hr, State.checkOverflow_ok h, State.pushValue_eq, bind, Except.bind]

theorem exec_call_returnAddress (i : Fin 8) {s : State} (hr : memSize ≤ s.pc + 2) :
    exec (.call (regByte i)) s = .next (s.takeFault ⟨.returnAddressOverflow, s.pc + 2⟩) := by
  simp only [exec, execCall, regIndex_regByte, checkReturnAddress_raise hr, bind, Except.bind]; rfl

theorem exec_call_overflow (i : Fin 8) {s : State} (hr : s.pc + 2 < memSize) (h : s.cfg.strictStack = true) (h0 : s.reg SP = 0) :
    exec (.call (regByte i)) s = .next (s.takeFault ⟨.stackOverflow, 0⟩) := by
  simp only [exec, execCall, regIndex_regByte, checkReturnAddress_ok hr, State.checkOverflow_raise h h0, bind, Except.bind]; rfl

theorem exec_ret {s : State} (h : s.cfg.strictStack = true → (s.reg SP).toNat < s.cfg.spTop.toNat) :
    exec .ret s =
      .next ((s.incSp.setPc (Memory.get s.mem (s.reg SP).toNat).toNat).advance (s.cfg.opcodes.byteOf .ret)) := by
  simp [exec, execReturn, State.checkUnderflow_ok h, State.stackTop_eq, bind, Except.bind]

theorem exec_ret_underflow {s : State} (h : s.cfg.strictStack = true) (h0 : s.cfg.spTop.toNat ≤ (s.reg SP).toNat) :
    exec .ret s = .next (s.takeFault ⟨.stackUnderflow, (s.reg SP).toNat⟩) := by
  simp only [exec, execReturn, State.checkUnderflow_raise h h0, bind, Except.bind]; rfl

theorem exec_jump (i : Fin 8) (s : State) :
    exec (.jump (regByte i)) s = .next ((s.setPc (s.reg i).toNat).advance (s.cfg.opcodes.byteOf .jump)) := by
  simp [exec, execJump, bind, Except.bind]

theorem exec_jumpIfEqual (i : Fin 8) (s : State) :
    exec (.jumpIfEqual (regByte i)) s =
      .next ((s.setPc (if s.flags.e then (s.reg i).toNat else s.pc + 2)).advance (s.cfg.opcodes.byteOf .jumpIfEqual)) := by
  simp [exec, execJumpIfEqual, bind, Except.bind]

theorem exec_jumpIfNotEqual (i : Fin 8) (s : State) :
    exec (.jumpIfNotEqual (regByte i)) s =
      .next ((s.setPc (if s.flags.e then s.pc + 2 else (s.reg i).toNat)).advance (s.cfg.opcodes.byteOf .jumpIfNotEqual)) := by
  simp [exec, execJumpIfNotEqual, bind, Except.bind]

/-! ### On illegal operands -/

section Illegal
variable {a : Byte} (h : 8 ≤ a.toNat) (s : State)
include h

theorem exec_printReg_illegal : exec (.printReg a) s = .next (s.takeFault ⟨.registerOutOfRange, a.toNat⟩) := by
  simp only [exec, execPrintReg, regIndex_illegal h, bind, Except.bind]; rfl
theorem exec_loadImmediate_illegal (imm : Byte) : exec (.loadImmediate a imm) s = .next (s.takeFault ⟨.registerOutOfRange, a.toNat⟩) := by
  simp only [exec, execLoadImmediate, regIndex_illegal h, bind, Except.bind]; rfl
theorem exec_multiply_illegal (b : Byte) : exec (.multiply a b) s = .next (s.takeFault ⟨.registerOutOfRange, a.toNat⟩) := by
  simp only [exec, execMultiply, regIndex_illegal h, bind, Except.bind]; rfl
theorem exec_multiply_illegal_second (i : Fin 8) :
    exec (.multiply (regByte i) a) s = .next (s.takeFault ⟨.registerOutOfRange, a.toNat⟩) := by
  simp only [exec, execMultiply, regIndex_regByte, regIndex_illegal h, bind, Except.bind]; rfl
theorem exec_compare_illegal (b : Byte) : exec (.compare a b) s = .next (s.takeFault ⟨.registerOutOfRange, a.toNat⟩) := by
  simp only [exec, execCompare, regIndex_illegal h, bind, Except.bind]; rfl
theorem exec_compare_illegal_second (i : Fin 8) :
    exec (.compare (regByte i) a) s = .next (s.takeFault ⟨.registerOutOfRange, a.toNat⟩) := by
  simp only [exec, execCompare, regIndex_regByte, regIndex_illegal h, bind, Except.bind]; rfl
theorem exec_push_illegal : exec (.push a) s = .next (s.takeFault ⟨.registerOutOfRange, a.toNat⟩) := by
  simp only [exec, execPush, regIndex_illegal h, bind, Except.bind]; rfl
theorem exec_pop_illegal : exec (.pop a) s = .next (s.takeFault ⟨.registerOutOfRange, a.toNat⟩) := by
  simp only [exec, execPop, regIndex_illegal h, bind, Except.bind]; rfl
theorem exec_call_illegal : exec (.call a) s = .next (s.takeFault ⟨.registerOutOfRange, a.toNat⟩) := by
  simp only [exec, execCall, regIndex_illegal h, bind, Except.bind]; rfl
theorem exec_jump_illegal : exec (.jump a) s = .next (s.takeFault ⟨.registerOutOfRange, a.toNat⟩) := by
  simp only [exec, execJump, regIndex_illegal h, bind, Except.bind]; rfl
theorem exec_jumpIfEqual_illegal : exec (.jumpIfEqual a) s = .next (s.takeFault ⟨.registerOutOfRange, a.toNat⟩) := by
  simp only [exec, execJumpIfEqual, regIndex_illegal h, bind, Except.bind]; rfl
theorem exec_jumpIfNotEqual_illegal : exec (.jumpIfNotEqual a) s = .next (s.takeFault ⟨.registerOutOfRange, a.toNat⟩) := by
  simp only [exec, execJumpIfNotEqual, regIndex_illegal h, bind, Except.bind]; rfl

end Illegal

/-! ### The inversion lemma -/

/-- Why an instruction's own checks raise (30_encoding.md R90 steps 4 and 5). -/
def RaisesBecause (i : Instr) (s : State) (r : Raised) : Prop :=
  (r.kind = .registerOutOfRange ∧ ∃ b ∈ i.registerOperands, 8 ≤ b.toNat ∧ r.info = b.toNat) ∨
  (r.kind = .returnAddressOverflow ∧ (∃ j, i = .call (regByte j)) ∧ memSize ≤ s.pc + 2 ∧ r.info = s.pc + 2) ∨
  (r.kind = .stackOverflow ∧ (∃ j, i = .push (regByte j) ∨ i = .call (regByte j)) ∧
    s.cfg.strictStack = true ∧ s.reg SP = 0 ∧ r.info = 0) ∨
  (r.kind = .stackUnderflow ∧ ((∃ j, i = .pop (regByte j)) ∨ i = .ret) ∧
    s.cfg.strictStack = true ∧ s.cfg.spTop.toNat ≤ (s.reg SP).toNat ∧ r.info = (s.reg SP).toNat)

/-- What an instruction whose checks pass makes of the state, before the engine's advance. -/
def Handles (i : Instr) (s s' : State) : Prop :=
  match i with
  | .printReg a => ∃ j, a = regByte j ∧ s' = s.emit (decimalLine (s.reg j))
  | .loadImmediate a imm => ∃ j, a = regByte j ∧ s' = s.setReg j imm
  | .halt => s' = s.halt
  | .multiply a b => ∃ j k, a = regByte j ∧ b = regByte k ∧ s' = s.setReg j (BitVec.ofNat 8 ((s.reg j).toNat * (s.reg k).toNat))
  | .push a => ∃ j, a = regByte j ∧ (s.cfg.strictStack = true → s.reg SP ≠ 0) ∧
      s' = s.decSp.setMem (Memory.set s.mem (s.reg SP - 1).toNat (s.decSp.reg j))
  | .pop a => ∃ j, a = regByte j ∧ (s.cfg.strictStack = true → (s.reg SP).toNat < s.cfg.spTop.toNat) ∧
      s' = (s.setReg j (Memory.get s.mem (s.reg SP).toNat)).incSp
  | .call a => ∃ j, a = regByte j ∧ s.pc + 2 < memSize ∧ (s.cfg.strictStack = true → s.reg SP ≠ 0) ∧
      s' = (s.decSp.setMem (Memory.set s.mem (s.reg SP - 1).toNat (BitVec.ofNat 8 (s.pc + 2)))).setPc (s.decSp.reg j).toNat
  | .ret => (s.cfg.strictStack = true → (s.reg SP).toNat < s.cfg.spTop.toNat) ∧
      s' = s.incSp.setPc (Memory.get s.mem (s.reg SP).toNat).toNat
  | .compare a b => ∃ j k, a = regByte j ∧ b = regByte k ∧ s' = s.setFlags (compareFlags (s.reg j) (s.reg k))
  | .jump a => ∃ j, a = regByte j ∧ s' = s.setPc (s.reg j).toNat
  | .jumpIfEqual a => ∃ j, a = regByte j ∧ s' = s.setPc (if s.flags.e then (s.reg j).toNat else s.pc + 2)
  | .jumpIfNotEqual a => ∃ j, a = regByte j ∧ s' = s.setPc (if s.flags.e then s.pc + 2 else (s.reg j).toNat)

/-- Everything an instruction can do: take the fault one of its checks raises, or act and advance. -/
theorem exec_cases (i : Instr) (s : State) :
    (∃ r, RaisesBecause i s r ∧ exec i s = .next (s.takeFault r)) ∨
    (∃ s', Handles i s s' ∧ exec i s = .next (s'.advance (s.cfg.opcodes.byteOf i.mnemonic))) := by
  have bad : ∀ {b : Byte} {i : Instr}, b ∈ i.registerOperands → 8 ≤ b.toNat → RaisesBecause i s ⟨.registerOutOfRange, b.toNat⟩ :=
    fun hb h => .inl ⟨rfl, _, hb, h, rfl⟩
  cases i with
  | printReg a =>
    obtain ⟨j, rfl⟩ | h := regIndex_cases a
    · exact .inr ⟨_, ⟨j, rfl, rfl⟩, exec_printReg j s⟩
    · exact .inl ⟨_, bad (by simp [Instr.registerOperands]) h, exec_printReg_illegal h s⟩
  | loadImmediate a imm =>
    obtain ⟨j, rfl⟩ | h := regIndex_cases a
    · exact .inr ⟨_, ⟨j, rfl, rfl⟩, exec_loadImmediate j imm s⟩
    · exact .inl ⟨_, bad (by simp [Instr.registerOperands]) h, exec_loadImmediate_illegal h s imm⟩
  | halt => exact .inr ⟨_, rfl, exec_halt s⟩
  | multiply a b =>
    obtain ⟨j, rfl⟩ | h := regIndex_cases a
    · obtain ⟨k, rfl⟩ | hb := regIndex_cases b
      · exact .inr ⟨_, ⟨j, k, rfl, rfl, rfl⟩, exec_multiply j k s⟩
      · exact .inl ⟨_, bad (by simp [Instr.registerOperands]) hb, exec_multiply_illegal_second hb s j⟩
    · exact .inl ⟨_, bad (by simp [Instr.registerOperands]) h, exec_multiply_illegal h s b⟩
  | push a =>
    obtain ⟨j, rfl⟩ | h := regIndex_cases a
    · by_cases hc : s.cfg.strictStack = true ∧ s.reg SP = 0
      · exact .inl ⟨_, .inr (.inr (.inl ⟨rfl, ⟨j, .inl rfl⟩, hc.1, hc.2, rfl⟩)), exec_push_overflow j hc.1 hc.2⟩
      · exact .inr ⟨_, ⟨j, rfl, fun h1 h2 => hc ⟨h1, h2⟩, rfl⟩, exec_push j fun h1 h2 => hc ⟨h1, h2⟩⟩
    · exact .inl ⟨_, bad (by simp [Instr.registerOperands]) h, exec_push_illegal h s⟩
  | pop a =>
    obtain ⟨j, rfl⟩ | h := regIndex_cases a
    · by_cases hc : s.cfg.strictStack = true ∧ s.cfg.spTop.toNat ≤ (s.reg SP).toNat
      · exact .inl ⟨_, .inr (.inr (.inr ⟨rfl, .inl ⟨j, rfl⟩, hc.1, hc.2, rfl⟩)), exec_pop_underflow j hc.1 hc.2⟩
      · have hc' : s.cfg.strictStack = true → (s.reg SP).toNat < s.cfg.spTop.toNat :=
          fun h1 => Nat.not_le.mp fun h2 => hc ⟨h1, h2⟩
        exact .inr ⟨_, ⟨j, rfl, hc', rfl⟩, exec_pop j hc'⟩
    · exact .inl ⟨_, bad (by simp [Instr.registerOperands]) h, exec_pop_illegal h s⟩
  | call a =>
    obtain ⟨j, rfl⟩ | h := regIndex_cases a
    · by_cases hr : s.pc + 2 < memSize
      · by_cases hc : s.cfg.strictStack = true ∧ s.reg SP = 0
        · exact .inl ⟨_, .inr (.inr (.inl ⟨rfl, ⟨j, .inr rfl⟩, hc.1, hc.2, rfl⟩)), exec_call_overflow j hr hc.1 hc.2⟩
        · exact .inr ⟨_, ⟨j, rfl, hr, fun h1 h2 => hc ⟨h1, h2⟩, rfl⟩, exec_call j hr fun h1 h2 => hc ⟨h1, h2⟩⟩
      · have hr' := Nat.not_lt.mp hr
        exact .inl ⟨_, .inr (.inl ⟨rfl, ⟨j, rfl⟩, hr', rfl⟩), exec_call_returnAddress j hr'⟩
    · exact .inl ⟨_, bad (by simp [Instr.registerOperands]) h, exec_call_illegal h s⟩
  | ret =>
    by_cases hc : s.cfg.strictStack = true ∧ s.cfg.spTop.toNat ≤ (s.reg SP).toNat
    · exact .inl ⟨_, .inr (.inr (.inr ⟨rfl, .inr rfl, hc.1, hc.2, rfl⟩)), exec_ret_underflow hc.1 hc.2⟩
    · have hc' : s.cfg.strictStack = true → (s.reg SP).toNat < s.cfg.spTop.toNat :=
        fun h1 => Nat.not_le.mp fun h2 => hc ⟨h1, h2⟩
      exact .inr ⟨_, ⟨hc', rfl⟩, exec_ret hc'⟩
  | compare a b =>
    obtain ⟨j, rfl⟩ | h := regIndex_cases a
    · obtain ⟨k, rfl⟩ | hb := regIndex_cases b
      · exact .inr ⟨_, ⟨j, k, rfl, rfl, rfl⟩, exec_compare j k s⟩
      · exact .inl ⟨_, bad (by simp [Instr.registerOperands]) hb, exec_compare_illegal_second hb s j⟩
    · exact .inl ⟨_, bad (by simp [Instr.registerOperands]) h, exec_compare_illegal h s b⟩
  | jump a =>
    obtain ⟨j, rfl⟩ | h := regIndex_cases a
    · exact .inr ⟨_, ⟨j, rfl, rfl⟩, exec_jump j s⟩
    · exact .inl ⟨_, bad (by simp [Instr.registerOperands]) h, exec_jump_illegal h s⟩
  | jumpIfEqual a =>
    obtain ⟨j, rfl⟩ | h := regIndex_cases a
    · exact .inr ⟨_, ⟨j, rfl, rfl⟩, exec_jumpIfEqual j s⟩
    · exact .inl ⟨_, bad (by simp [Instr.registerOperands]) h, exec_jumpIfEqual_illegal h s⟩
  | jumpIfNotEqual a =>
    obtain ⟨j, rfl⟩ | h := regIndex_cases a
    · exact .inr ⟨_, ⟨j, rfl, rfl⟩, exec_jumpIfNotEqual j s⟩
    · exact .inl ⟨_, bad (by simp [Instr.registerOperands]) h, exec_jumpIfNotEqual_illegal h s⟩

/-- Every instruction answers a next state. -/
theorem exec_next (i : Instr) (s : State) : ∃ t, exec i s = .next t := by
  obtain ⟨r, -, h⟩ | ⟨s', -, h⟩ := exec_cases i s <;> exact ⟨_, h⟩

/-- A handler leaves the engine state alone, unless it is HALT's. -/
theorem Handles.engine {i : Instr} {s s' : State} (h : Handles i s s') :
    s'.engine = s.engine ∨ (i = .halt ∧ s'.engine = .halted) := by
  cases i <;> simp only [Handles] at h
  case halt => subst h; simp
  all_goals
    obtain ⟨_, _, _, _, rfl⟩ := h
    simp

/-- Out of Running, an instruction ends in Faulted only by taking the fault of one of its checks. -/
theorem exec_faulted {i : Instr} {s t : State} {r : FaultRecord} (hr : s.engine = .running) (h : exec i s = .next t)
    (ht : t.engine = .faulted r) : ∃ q, RaisesBecause i s q ∧ r = ⟨q.kind, s.pc, q.info⟩ ∧ t = s.takeFault q := by
  obtain ⟨q, hq, he⟩ | ⟨s', hs, he⟩ := exec_cases i s
  all_goals
    rw [h, Host.Outcome.next.injEq] at he
    subst he
  · rw [State.takeFault_engine, Engine.faulted.injEq] at ht
    exact ⟨q, hq, ht.symm, rfl⟩
  · rw [State.advance_engine] at ht
    obtain h1 | ⟨-, h1⟩ := hs.engine
    · rw [h1, hr] at ht; cases ht
    · rw [h1] at ht; cases ht

/-- A well-formed instruction has no illegal register operand. -/
theorem legal_of_wellFormed {i : Instr} (h : i.wellFormed = true) {b : Byte} (hb : b ∈ i.registerOperands) : b.toNat < 8 := by
  simpa [legalRegister] using List.all_eq_true.mp h b hb

end Sys2Proof.Machine
end

