-- ==== Sys2Proof/Laws/PerInstr.lean ====
section
/-! SUPPORT. Per-instruction laws about instructions as syntax. -/

/-- Under every admissible opcode map an instruction's encoding is as long as its opcode's bits say, and the opcode's P bit
is its dispatch entry's (30_encoding.md R72, R81). -/
def Sys2Proof.Laws.Layout.Statement (i : Sys2Proof.Instr) : Prop :=
  ∀ t : Sys2Proof.OpcodeMap, t.Admissible →
    (Sys2Proof.encodeWith t i).length = Sys2Proof.instrSize (t.byteOf i.mnemonic) ∧
    Sys2Proof.setsPcDirectly (t.byteOf i.mnemonic) = i.mnemonic.setsPc

namespace Sys2Proof.Laws.Layout

theorem any (i : Instr) : Statement i := fun t ht =>
  ⟨by simp [encodeWith, ht.instrSize_byteOf], ht.setsPc_byteOf _⟩

theorem printReg (a : Byte) : Statement (.printReg a) := any _
theorem loadImmediate (a imm : Byte) : Statement (.loadImmediate a imm) := any _
theorem halt : Statement .halt := any _
theorem multiply (a b : Byte) : Statement (.multiply a b) := any _
theorem push (a : Byte) : Statement (.push a) := any _
theorem pop (a : Byte) : Statement (.pop a) := any _
theorem call (a : Byte) : Statement (.call a) := any _
theorem ret : Statement .ret := any _
theorem compare (a b : Byte) : Statement (.compare a b) := any _
theorem jump (a : Byte) : Statement (.jump a) := any _
theorem jumpIfEqual (a : Byte) : Statement (.jumpIfEqual a) := any _
theorem jumpIfNotEqual (a : Byte) : Statement (.jumpIfNotEqual a) := any _

end Sys2Proof.Laws.Layout
end

