-- ==== Sys2Proof/Laws/Step.lean ====
section
/-! SUPPORT. What a step can do, said once. -/

namespace Sys2Proof.Machine

/-- A decoder that answers an instruction is what fetch answers. -/
theorem State.fetch_ok {s : State} {i : Instr} : s.fetch = .ok i ↔ ∃ rest, decodeWith s.cfg.opcodes s.fetchWindow = .ok (i, rest) := by
  unfold State.fetch
  split
  · rename_i j rest h; simp [h]
  · rename_i e h; simp [h]

theorem State.fetch_error {s : State} {e : DecodeError} : s.fetch = .error e ↔ decodeWith s.cfg.opcodes s.fetchWindow = .error e := by
  unfold State.fetch
  split
  · rename_i j rest h; simp [h]
  · rename_i e' h; simp [h]

theorem step_of_fetch_ok {s : State} {i : Instr} (hr : s.engine = .running) (h : s.fetch = .ok i) : step s = exec i s := by
  simp [step, hr, h]

theorem step_of_fetch_error {s : State} {e : DecodeError} (hr : s.engine = .running) (h : s.fetch = .error e) :
    step s = s.fetchFailed e := by
  simp [step, hr, h]

/-- Only a running engine answers a next state (10_state.md R38). -/
theorem step_next_running {s t : State} (h : step s = .next t) : s.engine = .running := by
  cases he : s.engine <;> simp [step, he] at h ⊢

/-- Everything a step that answers a next state did: fetched and executed, or took the fault of a failed fetch. -/
theorem step_cases {s t : State} (h : step s = .next t) :
    s.engine = .running ∧
      ((∃ i, s.fetch = .ok i ∧ exec i s = .next t) ∨
       (∃ k, s.fetch = .error (.missing k) ∧ t = s.takeFault ⟨.memoryOutOfRange, s.pc + k⟩) ∨
       (∃ op, s.fetch = .error (.unknownOpcode op) ∧ t = s.takeFault ⟨.unknownOpcode, op.toNat⟩)) := by
  have hr := step_next_running h
  refine ⟨hr, ?_⟩
  cases hf : s.fetch with
  | ok i => exact .inl ⟨i, rfl, by rw [← step_of_fetch_ok hr hf, h]⟩
  | error e =>
    rw [step_of_fetch_error hr hf] at h
    cases e with
    | missing k => exact .inr (.inl ⟨k, rfl, by simpa [State.fetchFailed] using h.symm⟩)
    | unknownOpcode op => exact .inr (.inr ⟨op, rfl, by simpa [State.fetchFailed] using h.symm⟩)
    | layoutMismatch op => simp [State.fetchFailed] at h

/-- What a fetch that succeeds found: the opcode at pc, and the instruction's last byte inside memory. -/
theorem State.fetch_ok_spec {s : State} {i : Instr} (h : s.fetch = .ok i) :
    s.pc + i.mnemonic.arity < memSize ∧ Memory.get s.mem s.pc = s.cfg.opcodes.byteOf i.mnemonic ∧
      ∃ rest, s.fetchWindow = encodeWith s.cfg.opcodes i ++ rest := by
  obtain ⟨rest, hd⟩ := State.fetch_ok.mp h
  obtain ⟨-, he⟩ | ⟨op, tail, hw, ⟨-, he⟩ | ⟨m, hl, ⟨-, he⟩ | ⟨-, he⟩ | ⟨i', rest', hm, htail, he⟩⟩⟩ :=
    decodeWith_cases s.cfg.opcodes s.fetchWindow
  all_goals rw [he] at hd
  all_goals simp only [reduceCtorEq, Except.ok.injEq, Prod.mk.injEq] at hd
  obtain ⟨rfl, rfl⟩ := hd
  have hop := OpcodeMap.lookup_some hl
  have hwin : s.fetchWindow = encodeWith s.cfg.opcodes i' ++ rest' := by
    rw [hw, htail, encodeWith, hm, hop]; rfl
  have hlen := congrArg List.length hwin
  rw [State.fetchWindow, Memory.window_length] at hlen
  simp only [encodeWith, List.length_append, List.length_cons, Instr.operands_length] at hlen
  have h0 := Memory.window_getElem? s.mem 4 s.pc 0
  rw [← State.fetchWindow, hw] at h0
  simp only [List.getElem?_cons_zero, Nat.add_zero] at h0
  split at h0
  · simp only [Option.some.injEq] at h0
    exact ⟨by omega, by rw [← h0, hm, hop], rest', hwin⟩
  · simp at h0

/-- What a fetch that ran out of memory found. -/
theorem State.fetch_missing_spec {s : State} {k : Nat} (h : s.fetch = .error (.missing k)) : k ≤ 4 ∧ memSize ≤ s.pc + k := by
  have hd := State.fetch_error.mp h
  obtain ⟨hw, he⟩ | ⟨op, tail, hw, ⟨-, he⟩ | ⟨m, hl, ⟨hlt, he⟩ | ⟨-, he⟩ | ⟨i', rest', hm, htail, he⟩⟩⟩ :=
    decodeWith_cases s.cfg.opcodes s.fetchWindow
  all_goals rw [he] at hd
  all_goals simp only [reduceCtorEq, Except.error.injEq, DecodeError.missing.injEq] at hd
  all_goals
    have hlen := congrArg List.length hw
    rw [State.fetchWindow, Memory.window_length] at hlen
  · simp only [List.length_nil] at hlen; omega
  · have : operandCount op < 4 := (op.extractLsb' 6 2).isLt
    simp only [List.length_cons] at hlen; omega

/-- What a fetch of an unregistered opcode found. -/
theorem State.fetch_unknown_spec {s : State} {op : Byte} (h : s.fetch = .error (.unknownOpcode op)) :
    s.pc < memSize ∧ Memory.get s.mem s.pc = op ∧ ∀ m, s.cfg.opcodes.byteOf m ≠ op := by
  have hd := State.fetch_error.mp h
  obtain ⟨hw, he⟩ | ⟨op', tail, hw, ⟨hl, he⟩ | ⟨m, hl, ⟨hlt, he⟩ | ⟨-, he⟩ | ⟨i', rest', hm, htail, he⟩⟩⟩ :=
    decodeWith_cases s.cfg.opcodes s.fetchWindow
  all_goals rw [he] at hd
  all_goals simp only [reduceCtorEq, Except.error.injEq, DecodeError.unknownOpcode.injEq] at hd
  subst hd
  have h0 := Memory.window_getElem? s.mem 4 s.pc 0
  rw [← State.fetchWindow, hw] at h0
  simp only [List.getElem?_cons_zero, Nat.add_zero] at h0
  split at h0
  · rename_i hc
    simp only [Option.some.injEq] at h0
    exact ⟨hc.2, h0.symm, OpcodeMap.lookup_eq_none.mp hl⟩
  · simp at h0

/-- An admissible map never makes a fetch find a layout the map forbids. -/
theorem State.fetch_ne_layout {s : State} (ha : s.cfg.opcodes.Admissible) (op : Byte) : s.fetch ≠ .error (.layoutMismatch op) := by
  intro h
  have hd := State.fetch_error.mp h
  obtain ⟨hw, he⟩ | ⟨op', tail, hw, ⟨hl, he⟩ | ⟨m, hl, ⟨hlt, he⟩ | ⟨hne, he⟩ | ⟨i', rest', hm, htail, he⟩⟩⟩ :=
    decodeWith_cases s.cfg.opcodes s.fetchWindow
  all_goals rw [he] at hd
  all_goals simp only [reduceCtorEq, Except.error.injEq, DecodeError.layoutMismatch.injEq] at hd
  exact hne (by rw [← OpcodeMap.lookup_some hl, ha.operandCount_byteOf])

end Sys2Proof.Machine
end

