-- ==== Sys2Proof/Tests/Slice0.lean ====
section
/-! SUPPORT. The model's own tests: expected values are from 95_test_vectors.md (cited as V<n>, W<n>) and the rules' examples,
never from the model. Then one witness theorem for each statement that has hypotheses, clause by clause. -/

namespace Sys2Proof.Tests

open Sys2Proof Sys2Proof.Machine

/-! ### Well-formedness: each check refuses an ill-formed term, and takes the largest legal index -/

theorem test_wellFormed_refuses_printReg_8 : Instr.wellFormed (.printReg 8) = false := by decide
theorem test_wellFormed_refuses_loadImmediate_8 : Instr.wellFormed (.loadImmediate 8 0) = false := by decide
theorem test_wellFormed_refuses_multiply_first : Instr.wellFormed (.multiply 8 0) = false := by decide
theorem test_wellFormed_refuses_multiply_second : Instr.wellFormed (.multiply 0 255) = false := by decide
theorem test_wellFormed_refuses_push_8 : Instr.wellFormed (.push 8) = false := by decide
theorem test_wellFormed_refuses_pop_8 : Instr.wellFormed (.pop 8) = false := by decide
theorem test_wellFormed_refuses_call_8 : Instr.wellFormed (.call 8) = false := by decide
theorem test_wellFormed_refuses_compare_first : Instr.wellFormed (.compare 9 0) = false := by decide
theorem test_wellFormed_refuses_compare_second : Instr.wellFormed (.compare 0 9) = false := by decide
theorem test_wellFormed_refuses_jumps_8 :
    Instr.wellFormed (.jump 8) = false ∧ Instr.wellFormed (.jumpIfEqual 8) = false ∧
      Instr.wellFormed (.jumpIfNotEqual 8) = false := by decide
theorem test_wellFormed_takes_r7_and_any_literal :
    Instr.wellFormed (.multiply 7 7) = true ∧ Instr.wellFormed (.loadImmediate 7 255) = true ∧
      Instr.wellFormed .halt = true ∧ Instr.wellFormed .ret = true := by decide

/-! ### Decoding: every constructor's word, bit by bit from 30_encoding.md R80 and R74 -/

theorem test_decode_halt : decode [0b00000001] = .ok (.halt, []) := by decide
theorem test_decode_return : decode [0b00010001] = .ok (.ret, []) := by decide
theorem test_decode_push : decode [0b01000101, 0b00000010] = .ok (.push 2, []) := by decide
theorem test_decode_pop : decode [0b01000110, 0b00000100] = .ok (.pop 4, []) := by decide
theorem test_decode_printReg : decode [0b01000111, 0b00000111] = .ok (.printReg 7, []) := by decide
theorem test_decode_call : decode [0b01010000, 0b00000011] = .ok (.call 3, []) := by decide
theorem test_decode_jump : decode [0b01010100, 0b00000010] = .ok (.jump 2, []) := by decide
theorem test_decode_jumpIfEqual : decode [0b01010101, 0b00000010] = .ok (.jumpIfEqual 2, []) := by decide
theorem test_decode_jumpIfNotEqual : decode [0b01010110, 0b00000010] = .ok (.jumpIfNotEqual 2, []) := by decide
theorem test_decode_loadImmediate : decode [0b10000010, 0b00000000, 0b00001001] = .ok (.loadImmediate 0 9, []) := by decide
theorem test_decode_multiply : decode [0b10100010, 0b00000000, 0b00000001] = .ok (.multiply 0 1, []) := by decide
theorem test_decode_compare : decode [0b10100111, 0b00000011, 0b00000100] = .ok (.compare 3 4, []) := by decide
/-- The operand byte is not masked (R75): index 8 decodes as 8. -/
theorem test_decode_keeps_index_8 : decode [0x45, 0x08, 0x77] = .ok (.push 8, [0x77]) := by decide
theorem test_decode_missing_operand : decode [0xA2, 0x00] = .error (.missing 2) := by decide
/-- R82: 244 byte values are illegal. -/
theorem test_illegal_bytes_number_244 :
    ((List.range 256).filter fun n => OpcodeMap.ls8.lookup (BitVec.ofNat 8 n) == none).length = 244 := by
  decide +kernel
/-- V-table 2.1: sizes and P bits of registered and unregistered bytes. -/
theorem test_size_and_p_bits :
    [0x01, 0x11, 0x45, 0x50, 0x82, 0xA7, 0x00, 0xA0, 0xC0, 0xFF, 0x12].map (fun op : Byte => (instrSize op, setsPcDirectly op)) =
      [(1, false), (1, true), (2, false), (2, true), (3, false), (3, false), (1, false), (3, false), (4, false), (4, true),
       (1, true)] := by decide
/-- R87's example, and R85's syntax. -/
theorem test_encode_example : encode (.loadImmediate 0 9) = [0x82, 0x00, 0x09] := by decide
theorem test_assembly_example : Instr.assembly (.loadImmediate 0 9) = "LOAD_IMMEDIATE r0, 9" := by decide

/-! ### The host's words -/

theorem test_tableWord_one_byte : decodeTableWord 8 0x01 = some .halt := by decide
theorem test_tableWord_short : decodeTableWord 8 0xA2 = some (.multiply 0 0) := by decide
theorem test_tableWord_three_bytes : decodeTableWord 24 0xC80582 = some (.loadImmediate 5 200) := by decide
theorem test_tableWord_refuses : decodeTableWord 8 0xA0 = none := by decide
theorem test_withFetchWord_fetches : (State.reset.withFetchWord 24 0xC80582).fetch = .ok (.loadImmediate 5 200) := by decide

/-! ### One step on a small state -/

/-- The reset machine with pc moved to `pc` and `bytes` standing there. -/
def at_ (pc : Nat) (bytes : List Byte) : State := (State.reset.setPc pc).setMem (Memory.place [] pc bytes)

/-- The same with STRICT_STACK true. -/
def strict (s : State) : State := { s with cfg := { s.cfg with strictStack := true } }

/-- A value read from the next state. -/
def after {α : Type} (s : State) (f : State → α) : Option α :=
  match step s with
  | .next t => some (f t)
  | .fault _ | .refused _ => none

/-- A fault record. -/
def faulted (kind : FaultKind) (pc info : Nat) : Engine := .faulted { kind := kind, pc := pc, info := info }

/-- V2. -/
theorem test_printReg_255 : after ((at_ 0 [0x47, 3]).setReg 3 255) (fun t => (t.out, t.pc)) = some (["255\n"], 2) := by decide
/-- V3: the reset state prints SP; V1: zero has one digit. -/
theorem test_printReg_sp_and_zero :
    after (at_ 0 [0x47, 7]) (·.out) = some ["244\n"] ∧ after (at_ 0 [0x47, 0]) (·.out) = some ["0\n"] := by decide
/-- V6, V7. -/
theorem test_loadImmediate :
    after (at_ 0 [0x82, 5, 200]) (fun t => (t.reg 5, t.pc)) = some (200, 3) ∧
      after (at_ 0 [0x82, 7, 100]) (fun t => t.reg SP) = some 100 := by decide
/-- V10, V11: the pc ends past HALT, at 256 when HALT stands at 255. -/
theorem test_halt :
    after (at_ 11 [0x01]) (fun t => (t.engine, t.pc)) = some (.halted, 12) ∧
      after (at_ 255 [0x01]) (fun t => (t.engine, t.pc)) = some (.halted, 256) := by decide
/-- V14: 255 × 255 wraps to 1. -/
theorem test_multiply_wraps :
    after (((at_ 0 [0xA2, 0, 1]).setReg 0 255).setReg 1 255) (fun t => (t.reg 0, t.reg 1, t.pc)) = some (1, 255, 3) := by decide
/-- V18, V19: a register squared, and the flags untouched. -/
theorem test_multiply_same_register :
    after (((at_ 0 [0xA2, 2, 2]).setReg 2 12).setFlags ⟨true, false, false⟩) (fun t => (t.reg 2, t.flags)) =
      some (144, ⟨true, false, false⟩) := by decide
/-- V25: the comparison is unsigned. -/
theorem test_compare_unsigned :
    after (((at_ 0 [0xA7, 0, 1]).setReg 0 128).setReg 1 127) (·.flags) = some ⟨false, false, true⟩ := by decide
/-- V26: all three flags are reset first. -/
theorem test_compare_resets :
    after ((((at_ 0 [0xA7, 0, 1]).setReg 0 5).setReg 1 5).setFlags ⟨false, true, false⟩) (·.flags) =
      some ⟨true, false, false⟩ := by decide
/-- V29, V31. -/
theorem test_push :
    after ((at_ 0 [0x45, 2]).setReg 2 5) (fun t => (t.reg SP, Memory.get t.mem 243, t.pc)) = some (243, 5, 2) ∧
      after (((at_ 0 [0x45, 0]).setReg 0 7).setReg SP 0) (fun t => (t.reg SP, Memory.get t.mem 255)) = some (255, 7) := by decide
/-- V36: PUSH r7 stores the decremented SP. V59: a push onto its own operand byte uses the operand it fetched. -/
theorem test_push_r7_and_self_store :
    after (at_ 0 [0x45, 7]) (fun t => (t.reg SP, Memory.get t.mem 243)) = some (243, 243) ∧
      after (((at_ 100 [0x45, 3]).setReg 3 66).setReg SP 102) (fun t => (Memory.get t.mem 101, t.pc)) = some (66, 102) := by decide
/-- V30, V33. -/
theorem test_pop :
    after (((at_ 0 [0x46, 4]).setReg SP 242).setMem (Memory.set (at_ 0 [0x46, 4]).mem 242 10))
        (fun t => (t.reg 4, t.reg SP, Memory.get t.mem 242)) = some (10, 243, 10) ∧
      after (((at_ 0 [0x46, 1]).setReg SP 255).setMem (Memory.set (at_ 0 [0x46, 1]).mem 255 9))
        (fun t => (t.reg 1, t.reg SP)) = some (9, 0) := by decide
/-- V37: POP r7 increments the loaded value. -/
theorem test_pop_r7 :
    after (((at_ 0 [0x46, 7]).setReg SP 243).setMem (Memory.set (at_ 0 [0x46, 7]).mem 243 100)) (fun t => t.reg SP) =
      some 101 := by decide
/-- V39, V42. -/
theorem test_call :
    after ((at_ 19 [0x50, 3]).setReg 3 22) (fun t => (t.reg SP, Memory.get t.mem 243, t.pc)) = some (243, 21, 22) ∧
      after (at_ 10 [0x50, 7]) (fun t => (t.reg SP, Memory.get t.mem 243, t.pc)) = some (243, 12, 243) := by decide
/-- V40, V41: at 254 the return address does not fit, at 255 the operand is not there. -/
theorem test_call_faults :
    after (at_ 254 [0x50, 0]) (·.engine) = some (faulted .returnAddressOverflow 254 256) ∧
      after (at_ 255 [0x50]) (·.engine) = some (faulted .memoryOutOfRange 255 256) := by decide
/-- V43, V58. -/
theorem test_return :
    after (((at_ 0 [0x11]).setReg SP 243).setMem (Memory.set (at_ 0 [0x11]).mem 243 21)) (fun t => (t.reg SP, t.pc)) =
        some (244, 21) ∧
      after (at_ 255 [0x11]) (fun t => (t.reg SP, t.pc)) = some (245, 0) := by decide
/-- V45. -/
theorem test_jump : after ((at_ 3 [0x54, 2]).setReg 2 16) (·.pc) = some 16 := by decide
/-- V46, V48, V51. -/
theorem test_jumpIfEqual :
    after (((at_ 12 [0x55, 2]).setReg 2 16).setFlags ⟨true, false, false⟩) (·.pc) = some 16 ∧
      after (((at_ 12 [0x55, 2]).setReg 2 16).setFlags ⟨false, true, false⟩) (·.pc) = some 14 ∧
      after (at_ 254 [0x55, 0]) (·.pc) = some 256 := by decide
/-- V49, V50. -/
theorem test_jumpIfNotEqual :
    after ((at_ 17 [0x56, 2]).setReg 2 9) (·.pc) = some 9 ∧
      after (((at_ 17 [0x56, 2]).setReg 2 9).setFlags ⟨true, false, false⟩) (·.pc) = some 19 := by decide
/-- V28: the ALU alone. -/
theorem test_alu_add_wraps : aluApply .add 200 100 = .ok 44 := by decide

/-! ### Faults -/

/-- V55, V56, V57. -/
theorem test_fetch_faults :
    after State.reset (·.engine) = some (faulted .unknownOpcode 0 0) ∧
      after (at_ 256 []) (·.engine) = some (faulted .memoryOutOfRange 256 256) ∧
      after (at_ 254 [0xA2, 9]) (·.engine) = some (faulted .memoryOutOfRange 254 256) := by decide
/-- V20, V5, V53: the first illegal index is named, on both paths of a branch. -/
theorem test_register_faults :
    after (at_ 0 [0xA2, 9, 10]) (·.engine) = some (faulted .registerOutOfRange 0 9) ∧
      after (at_ 0 [0x47, 8]) (·.engine) = some (faulted .registerOutOfRange 0 8) ∧
      after (at_ 0 [0x55, 8]) (·.engine) = some (faulted .registerOutOfRange 0 8) := by decide
/-- V32, V35. -/
theorem test_strict_stack_faults :
    after (strict ((at_ 0 [0x45, 0]).setReg SP 0)) (·.engine) = some (faulted .stackOverflow 0 0) ∧
      after (strict (at_ 0 [0x46, 1])) (·.engine) = some (faulted .stackUnderflow 0 244) := by decide

/-! ### Launch and load -/

/-- R41 and R34: the default machine, run with nothing loaded, is the reset state. -/
theorem test_run_gives_reset :
    (State.constructed (Config.launchDefaults OpcodeMap.ls8) #v[9, 9, 9, 9, 9, 9, 9, 9] 77 ⟨true, true, true⟩).boot [] =
      .ok State.reset := by decide
/-- W9 and R298: the source's example line is byte 0x82; comments and blank lines are skipped. -/
theorem test_parse_example :
    parseProgram ['1', '0', '0', '0', '0', '0', '1', '0', ' ', '#', ' ', 'x', '\n', ' ', '\n'] = .ok [0x82] := by decide
/-- D25: seven digits are a load error. -/
theorem test_parse_malformed : parseProgram ['1', '0', '0', '0', '0', '0', '1'] = .error (.malformedLine 1) := by decide

/-! ### Witnesses: states and operands that meet each statement's hypotheses, clause by clause, at the range's ends -/

/-- R81 holds of the default map and of another one. -/
theorem witness_Admissible :
    OpcodeMap.ls8.Admissible ∧ OpcodeMap.Admissible { OpcodeMap.ls8 with multiply := 0xA3 } ∧
      ¬ OpcodeMap.Admissible { OpcodeMap.ls8 with multiply := 0xA7 } := by decide

theorem witness_DecodeOfEncodeIsTheInstruction : ∃ t : OpcodeMap, t.Admissible ∧ t ≠ OpcodeMap.ls8 :=
  ⟨{ OpcodeMap.ls8 with multiply := 0xA3 }, by decide⟩

theorem witness_EncodeOfDecodeIsTheBytes : decodeWith OpcodeMap.ls8 [0x45, 2, 9] = .ok (.push 2, [9]) := by decide

theorem witness_StepRunsTheDecodedInstruction :
    (at_ 0 [0x45, 2]).engine = .running ∧
      decodeWith (at_ 0 [0x45, 2]).cfg.opcodes (at_ 0 [0x45, 2]).fetchWindow = .ok (.push 2, [0, 0]) := by decide

/-- The last address at which a three-byte instruction fits. -/
theorem witness_StepRunsTheInstructionInMemory :
    (at_ 253 [0xA2, 0, 1]).engine = .running ∧ (at_ 253 [0xA2, 0, 1]).cfg.opcodes.Admissible ∧
      (at_ 253 [0xA2, 0, 1]).InstructionAt (.multiply 0 1) := by
  refine ⟨by decide, by decide, ?_⟩
  unfold State.InstructionAt
  decide

theorem witness_RunningMachineAlwaysSteps : State.reset.engine = .running ∧ State.reset.cfg.opcodes.Admissible := by decide

/-- A running state whose instruction takes a fault: what the clauses about a faulting `exec` assume. -/
theorem witness_faultingExec :
    (∃ t r, exec (.printReg 8) State.reset = .next t ∧ t.engine = .faulted r ∧ r.kind = .registerOutOfRange) ∧
      State.reset.engine = .running := ⟨⟨_, _, rfl, rfl, rfl⟩, rfl⟩

/-- Address 256; pc 256; a one-operand opcode at 255; two-operand opcodes at 254 and 255. -/
theorem witness_AccessOutsideMemoryFaults :
    memSize ≤ 256 ∧ ((at_ 256 []).engine = .running ∧ memSize ≤ (at_ 256 []).pc) ∧
      (at_ 255 [0x45]).pc < memSize ∧
      Memory.get (at_ 255 [0x45]).mem (at_ 255 [0x45]).pc = (at_ 255 [0x45]).cfg.opcodes.byteOf .push ∧
      memSize ≤ (at_ 255 [0x45]).pc + Mnemonic.arity .push ∧
      Memory.get (at_ 254 [0xA7, 0]).mem (at_ 254 [0xA7, 0]).pc = (at_ 254 [0xA7, 0]).cfg.opcodes.byteOf .compare ∧
      memSize ≤ (at_ 254 [0xA7, 0]).pc + Mnemonic.arity .compare ∧
      memSize ≤ (at_ 255 [0xA7]).pc + Mnemonic.arity .compare ∧ (at_ 255 [0x45]).cfg.opcodes.Admissible := by decide

/-- An illegal byte at the last address. -/
theorem witness_UnregisteredOpcodeFaults :
    (at_ 255 [0xA0]).engine = .running ∧ (at_ 255 [0xA0]).pc < memSize ∧
      (∀ m ∈ Mnemonic.all, (at_ 255 [0xA0]).cfg.opcodes.byteOf m ≠ Memory.get (at_ 255 [0xA0]).mem (at_ 255 [0xA0]).pc) ∧
      ∃ t, step (at_ 255 [0xA0]) = .next t := ⟨by decide, by decide, by decide, _, rfl⟩

/-- The first illegal index, and a well-formed instruction that takes a fault of another kind. -/
theorem witness_IllegalRegisterOperandFaults :
    8 ≤ (8 : Byte).toNat ∧ 8 ≤ (255 : Byte).toNat ∧
      ∃ t r, Instr.wellFormed (.push 7) = true ∧ (strict (State.reset.setReg SP 0)).engine = .running ∧
        exec (.push 7) (strict (State.reset.setReg SP 0)) = .next t ∧ t.engine = .faulted r :=
  ⟨by decide, by decide, _, _, by decide, rfl, rfl, rfl⟩

/-- The instructions without a precondition but R81: PRINT_REG, LOAD_IMMEDIATE, HALT, MULTIPLY, COMPARE and the jumps. -/
theorem witness_ResultsUnderAdmissible :
    State.reset.cfg.opcodes.Admissible ∧ State.reset.flags.e = false ∧
      (State.reset.setFlags ⟨true, false, false⟩).cfg.opcodes.Admissible ∧
      (State.reset.setFlags ⟨true, false, false⟩).flags.e = true := by decide

theorem witness_FlagPortsAreTotalAndExclusive :
    (∃ t, exec (.compare (regByte 0) (regByte 1)) State.reset = .next t) ∧
      (∃ t, (State.constructed State.reset.cfg State.reset.x 0 ⟨true, true, true⟩).run = some t) ∧
      State.reset.cfg.opcodes.Admissible ∧
      (∃ t, exec (.jumpIfEqual (regByte 7)) State.reset = .next t) ∧
      ∃ t, exec (.jumpIfNotEqual (regByte 7)) State.reset = .next t :=
  ⟨⟨_, rfl⟩, ⟨_, rfl⟩, by decide, ⟨_, rfl⟩, _, rfl⟩

/-- PUSH: not strict at SP = 0, and strict at SP = 1. -/
theorem witness_PushStoresBelowStackPointer :
    (State.reset.setReg SP 0).cfg.opcodes.Admissible ∧
      ((State.reset.setReg SP 0).cfg.strictStack = true → (State.reset.setReg SP 0).reg SP ≠ 0) ∧
      (strict (State.reset.setReg SP 1)).cfg.strictStack = true ∧
      ((strict (State.reset.setReg SP 1)).cfg.strictStack = true → (strict (State.reset.setReg SP 1)).reg SP ≠ 0) := by decide

/-- POP and RETURN: not strict at SP = 255, and strict just below SP_TOP. -/
theorem witness_PopLoadsFromStackPointer :
    (State.reset.setReg SP 255).cfg.opcodes.Admissible ∧
      ((State.reset.setReg SP 255).cfg.strictStack = true →
        ((State.reset.setReg SP 255).reg SP).toNat < (State.reset.setReg SP 255).cfg.spTop.toNat) ∧
      (strict (State.reset.setReg SP 243)).cfg.strictStack = true ∧
      ((strict (State.reset.setReg SP 243)).cfg.strictStack = true →
        ((strict (State.reset.setReg SP 243)).reg SP).toNat < (strict (State.reset.setReg SP 243)).cfg.spTop.toNat) := by decide

theorem witness_ReturnGoesToPoppedAddress :
    (strict (State.reset.setReg SP 243)).cfg.opcodes.Admissible ∧
      ((strict (State.reset.setReg SP 243)).cfg.strictStack = true →
        ((strict (State.reset.setReg SP 243)).reg SP).toNat < (strict (State.reset.setReg SP 243)).cfg.spTop.toNat) := by decide

/-- CALL at 253, the last address whose return address fits, with SP = 1 and STRICT_STACK. -/
theorem witness_CallPushesReturnAddressAndJumps :
    (strict ((State.reset.setPc 253).setReg SP 1)).cfg.opcodes.Admissible ∧
      (strict ((State.reset.setPc 253).setReg SP 1)).pc + 2 < memSize ∧
      ((strict ((State.reset.setPc 253).setReg SP 1)).cfg.strictStack = true →
        (strict ((State.reset.setPc 253).setReg SP 1)).reg SP ≠ 0) := by decide

theorem witness_StrictPushAndCallOverflow :
    ((strict (State.reset.setReg SP 0)).cfg.strictStack = true ∧ (strict (State.reset.setReg SP 0)).reg SP = 0 ∧
      (strict (State.reset.setReg SP 0)).pc + 2 < memSize) ∧
      (∃ t r, (strict (State.reset.setReg SP 0)).engine = .running ∧
        exec (.push (regByte 7)) (strict (State.reset.setReg SP 0)) = .next t ∧ t.engine = .faulted r ∧
        r.kind = .stackOverflow) ∧
      (State.reset.setReg SP 0).cfg.strictStack = false ∧ (State.reset.setReg SP 0).reg SP = 0 ∧
      (State.reset.setReg SP 0).pc + 2 < memSize :=
  ⟨by decide, ⟨_, _, rfl, rfl, rfl, rfl⟩, by decide, by decide, by decide⟩

/-- SP exactly at SP_TOP. -/
theorem witness_StrictPopAndReturnUnderflow :
    ((strict State.reset).cfg.strictStack = true ∧
      (strict State.reset).cfg.spTop.toNat ≤ ((strict State.reset).reg SP).toNat) ∧
      (∃ t r, (strict State.reset).engine = .running ∧ exec .ret (strict State.reset) = .next t ∧ t.engine = .faulted r ∧
        r.kind = .stackUnderflow) ∧
      State.reset.cfg.opcodes.Admissible ∧ State.reset.cfg.strictStack = false :=
  ⟨by decide, ⟨_, _, rfl, rfl, rfl, rfl⟩, by decide, by decide⟩

theorem witness_CallReturnAddressOverflows :
    memSize ≤ (State.reset.setPc 254).pc + 2 ∧
      ((at_ 254 [0x50, 7]).engine = .running ∧ (at_ 254 [0x50, 7]).cfg.opcodes.Admissible ∧ (at_ 254 [0x50, 7]).pc = 254 ∧
        (at_ 254 [0x50, 7]).InstructionAt (.call (regByte 7))) ∧
      ∃ t r, (State.reset.setPc 254).engine = .running ∧ exec (.call (regByte 0)) (State.reset.setPc 254) = .next t ∧
        t.engine = .faulted r ∧ r.kind = .returnAddressOverflow := by
  refine ⟨by decide, ⟨by decide, by decide, by decide, ?_⟩, _, _, rfl, rfl, rfl, rfl⟩
  unfold State.InstructionAt
  decide

/-- A step that takes a fault from an admissible machine, of each reachable kind. -/
theorem witness_FaultEntryRecordsCauseAndNothingElse :
    State.reset.cfg.opcodes.Admissible ∧
      (∃ t r, step State.reset = .next t ∧ t.engine = .faulted r ∧ r.kind = .unknownOpcode) ∧
      (∃ t r, step (at_ 255 [0x45]) = .next t ∧ t.engine = .faulted r ∧ r.kind = .memoryOutOfRange) ∧
      (∃ t r, step (at_ 0 [0x45, 8]) = .next t ∧ t.engine = .faulted r ∧ r.kind = .registerOutOfRange) ∧
      (∃ t r, step (at_ 254 [0x50, 0]) = .next t ∧ t.engine = .faulted r ∧ r.kind = .returnAddressOverflow) ∧
      (∃ t r, step (strict ((at_ 0 [0x45, 0]).setReg SP 0)) = .next t ∧ t.engine = .faulted r ∧ r.kind = .stackOverflow) ∧
      ∃ t r, step (strict (at_ 0 [0x11])) = .next t ∧ t.engine = .faulted r ∧ r.kind = .stackUnderflow :=
  ⟨by decide, ⟨_, _, rfl, rfl, rfl⟩, ⟨_, _, rfl, rfl, rfl⟩, ⟨_, _, rfl, rfl, rfl⟩, ⟨_, _, rfl, rfl, rfl⟩,
    ⟨_, _, rfl, rfl, rfl⟩, _, _, rfl, rfl, rfl⟩

theorem witness_UnsupportedAluOperationIsUnreachable : ∃ t r, step State.reset = .next t ∧ t.engine = .faulted r :=
  ⟨_, _, rfl, rfl⟩

theorem witness_EndedRunsStayEnded :
    (State.constructed State.reset.cfg State.reset.x 0 State.reset.flags).engine = .ready ∧
      State.reset.halt.engine = .halted ∧
      (State.reset.takeFault ⟨.unknownOpcode, 0⟩).engine = .faulted ⟨.unknownOpcode, 0, 0⟩ := by decide

theorem witness_OnlyHaltAndFaultsLeaveRunning :
    (at_ 0 [0x01]).cfg.opcodes.Admissible ∧ (∃ t, step (at_ 0 [0x01]) = .next t ∧ t.engine = .halted) ∧
      ∃ t, step (at_ 0 [0x54, 0]) = .next t ∧ t.engine = .running := ⟨by decide, ⟨_, rfl, rfl⟩, _, rfl, rfl⟩

theorem witness_OnlyCompareWritesFlags :
    ∃ t, step (at_ 0 [0xA7, 0, 1]) = .next t ∧ t.flags ≠ (at_ 0 [0xA7, 0, 1]).flags := ⟨_, rfl, by decide⟩

theorem witness_OnlyPushAndCallWriteMemory :
    ∃ t a, step (at_ 0 [0x45, 7]) = .next t ∧ Memory.get t.mem a ≠ Memory.get (at_ 0 [0x45, 7]).mem a :=
  ⟨_, 243, rfl, by decide⟩

theorem witness_OnlyNamedRegistersAreWritten :
    ∃ t, step (at_ 0 [0x82, 1, 5]) = .next t ∧ t.reg 1 ≠ (at_ 0 [0x82, 1, 5]).reg 1 := ⟨_, rfl, by decide⟩

theorem witness_OutputChannelIsAppendOnlyAndUnread :
    (∃ t, (State.constructed State.reset.cfg State.reset.x 0 State.reset.flags).run = some t) ∧
      ∃ t, step (at_ 0 [0x47, 7]) = .next t ∧ t.out ≠ [] := ⟨⟨_, rfl⟩, _, rfl, by decide⟩

/-- Two machines that differ in L and G only. -/
theorem witness_LessAndGreaterAreNeverRead :
    (State.reset.setFlags ⟨false, true, false⟩).withoutLessGreater = (State.reset.setFlags ⟨false, false, true⟩).withoutLessGreater ∧
      State.reset.setFlags ⟨false, true, false⟩ ≠ State.reset.setFlags ⟨false, false, true⟩ := by decide

theorem witness_ConfigurationNeverChanges : ∃ t, step (at_ 0 [0x54, 0]) = .next t := ⟨_, rfl⟩

/-- HALT at 255, whose advance gives 256; an instruction at an odd address; pc 256. -/
theorem witness_PcIsWrittenByAdvanceHandlersAndRun :
    ((at_ 255 [0x01]).cfg.opcodes.Admissible ∧ (at_ 255 [0x01]).fetch = .ok .halt ∧
      setsPcDirectly ((at_ 255 [0x01]).cfg.opcodes.byteOf .halt) = false ∧
      ∃ t, step (at_ 255 [0x01]) = .next t ∧ ∀ r, t.engine ≠ .faulted r) ∧
      (∃ t, (State.constructed State.reset.cfg State.reset.x 7 State.reset.flags).run = some t) ∧
      ((at_ 255 [0x01]).engine = .running ∧ (at_ 255 [0x01]).InstructionAt .halt) ∧
      (at_ 256 []).engine = .running ∧ 255 < (at_ 256 []).pc := by
  refine ⟨⟨by decide, by decide, by decide, _, rfl, fun r h => ?_⟩, ⟨_, rfl⟩, ⟨by decide, ?_⟩, by decide, by decide⟩
  · exact absurd h (by intro h; cases h)
  · unfold State.InstructionAt
    decide

/-- A state inside the invariant that is not the reset state, and its step. -/
theorem witness_EveryStepKeepsTheInvariant : ((at_ 255 [0x01]).setFlags ⟨false, true, false⟩).Inv ∧
    ∃ t, step ((at_ 255 [0x01]).setFlags ⟨false, true, false⟩) = .next t :=
  ⟨⟨by decide, by decide, by decide, by decide, fun r h => by cases h⟩, _, rfl⟩

theorem witness_EveryLoadedRunKeepsTheInvariant :
    ∃ s, State.reset.cfg.opcodes.Admissible ∧
      (State.constructed State.reset.cfg State.reset.x 9 ⟨true, true, false⟩).boot [0x47, 0, 0x01] = .ok s ∧
      ∃ t, Host.Core.run Sys2Proof.core 2 s = .next t := ⟨_, by decide, rfl, _, rfl⟩

/-- PUSH then POP at SP = 0, where the decrement wraps. -/
theorem witness_PushThenPopRestoresRegisters :
    ∃ u t, (State.reset.setReg SP 0).engine = .running ∧ exec (.push (regByte 3)) (State.reset.setReg SP 0) = .next u ∧
      u.engine = .running ∧ exec (.pop (regByte 3)) u = .next t ∧ t.engine = .running := ⟨_, _, rfl, rfl, rfl, rfl, rfl⟩

theorem witness_CallThenReturnResumesAfterCall :
    ∃ u v t, State.reset.cfg.opcodes.Admissible ∧ State.reset.engine = .running ∧
      exec (.call (regByte 3)) State.reset = .next u ∧ u.engine = .running ∧ v.cfg = u.cfg ∧ v.engine = .running ∧
      v.reg SP = u.reg SP ∧ Memory.get v.mem (v.reg SP).toNat = Memory.get u.mem (u.reg SP).toNat ∧
      exec .ret v = .next t ∧ t.engine = .running :=
  ⟨_, _, _, by decide, rfl, rfl, rfl, rfl, rfl, rfl, rfl, rfl, rfl⟩

/-- The last address inside memory and the first outside. -/
theorem witness_MemoryInterfaceReadsAndWrites :
    255 < 256 ∧ 256 ≤ 256 ∧ State.reset.memRead 255 = .ok 0 ∧ State.reset.memRead 256 = raise .memoryOutOfRange 256 := by decide

theorem witness_CanonicalMemoriesAreEqualData :
    Memory.wf (Memory.set (Memory.set [] 7 1) 3 2) = true ∧ Memory.wf (Memory.set (Memory.set [] 3 2) 7 1) = true ∧
      Memory.set (Memory.set [] 7 1) 3 2 = Memory.set (Memory.set [] 3 2) 7 1 := by decide

theorem witness_RunSetsTheResetValues :
    (State.constructed State.reset.cfg State.reset.x 0 State.reset.flags).engine = .ready ∧ State.reset.engine ≠ .ready ∧
      0 < 7 ∧ 6 < 7 := by decide

/-- Images of 0, 256 and 257 bytes. -/
theorem witness_LoadPlacesTheImageFromZero :
    ([] : List Byte).length ≤ 256 ∧ (List.replicate 256 (1 : Byte)).length ≤ 256 ∧
      256 < (List.replicate 257 (1 : Byte)).length := by
  rw [List.length_replicate, List.length_replicate]
  exact ⟨Nat.zero_le _, Nat.le_refl _, Nat.lt_succ_self _⟩

theorem witness_ProgramFileGivesItsBytes : ∀ c ∈ ['#', ' ', 'x'], c ≠ '\n' := by simp

theorem witness_ExitStatusSeparatesHaltFaultAndLoadFailure :
    State.reset.halt.engine = .halted ∧
      (State.reset.takeFault ⟨.unknownOpcode, 0⟩).engine = .faulted ⟨.unknownOpcode, 0, 0⟩ ∧
      State.reset.engine = .running := by decide

end Sys2Proof.Tests
end

section
/-! HALT (10_state.md section 4). -/

namespace Sys2Proof.Machine

/-- R81 and R89: after an instruction that does not set the pc itself, the engine moves the pc past its opcode and operands. -/
theorem State.advance_pc_of_sequential (s : State) {t : OpcodeMap} (ht : t.Admissible) {m : Mnemonic} (hm : m.setsPc = false) :
    (s.advance (t.byteOf m)).pc = s.pc + (m.arity + 1) := by
  simp [State.advance_pc, ht.setsPc_byteOf, ht.instrSize_byteOf, hm]

/-- R38: a halted engine executes nothing. -/
theorem step_of_halted {s : State} (h : s.engine = .halted) : step s = .fault .alreadyHalted := by
  simp [step, h]

/-- Settles O12: HALT's handler changes the engine state alone, and the advance changes the pc alone. -/
theorem haltStopsWithPcPastIt : Obligations.HaltStopsWithPcPastIt := by
  intro s hadm
  have hpc : (s.halt.advance (s.cfg.opcodes.byteOf .halt)).pc = s.pc + 1 :=
    s.halt.advance_pc_of_sequential hadm (m := .halt) rfl
  have hengine : (s.halt.advance (s.cfg.opcodes.byteOf .halt)).engine = .halted := by simp
  exact ⟨_, exec_halt s, hengine, hpc, by simp, by simp, by simp, by simp, by simp, step_of_halted hengine⟩

end Sys2Proof.Machine
end

section
/-! Unregistered opcodes (30_encoding.md R79, 60_exceptions.md R251). -/

namespace Sys2Proof.Machine

/-- Inside memory, the byte at pc is the first byte the decoder sees (30_encoding.md R88). -/
theorem State.fetchWindow_cons {s : State} (hpc : s.pc < memSize) :
    s.fetchWindow = Memory.get s.mem s.pc :: Memory.window s.mem (s.pc + 1) 3 := by
  simp [State.fetchWindow, Memory.window, hpc]

/-- R79: the opcode lookup comes before any operand byte is taken, so the bytes after an unregistered opcode play no part. -/
theorem decodeWith_unregistered {t : OpcodeMap} {op : Byte} (h : ∀ m, t.byteOf m ≠ op) (tail : List Byte) :
    decodeWith t (op :: tail) = .error (.unknownOpcode op) := by
  simp [decodeWith, OpcodeMap.lookup_eq_none.mpr h]

/-- The converse of `State.fetch_unknown_spec`. -/
theorem State.fetch_unregistered {s : State} (hpc : s.pc < memSize)
    (h : ∀ m, s.cfg.opcodes.byteOf m ≠ Memory.get s.mem s.pc) :
    s.fetch = .error (.unknownOpcode (Memory.get s.mem s.pc)) := by
  rw [State.fetch_error, State.fetchWindow_cons hpc]
  exact decodeWith_unregistered h _

/-- Settles O8: the fetch fails on the opcode alone, and the fault is taken from the state at the start of the step, whose
pc it keeps. -/
theorem unregisteredOpcodeFaults : Obligations.UnregisteredOpcodeFaults := by
  intro s hrun hpc hkey
  have hstep : step s = .next (s.takeFault ⟨.unknownOpcode, (Memory.get s.mem s.pc).toNat⟩) :=
    step_of_fetch_error hrun (State.fetch_unregistered hpc hkey)
  refine ⟨⟨_, hstep, by simp, by simp⟩, fun t ht => ?_⟩
  obtain rfl : s.takeFault ⟨.unknownOpcode, (Memory.get s.mem s.pc).toNat⟩ = t :=
    Host.Outcome.next.inj (hstep.symm.trans ht)
  exact s.takeFault_pc _

end Sys2Proof.Machine
end

section
/-! The flag register's ports (41_alu.md R145, R146). -/

namespace Sys2Proof.Machine

/-- R145: the write port's three outcomes, each with the numeric order it stands for. -/
theorem compareFlags_cases (a b : Byte) :
    (a = b ∧ compareFlags a b = ⟨true, false, false⟩) ∨
    (a.toNat < b.toNat ∧ compareFlags a b = ⟨false, true, false⟩) ∨
    (b.toNat < a.toNat ∧ compareFlags a b = ⟨false, false, true⟩) := by
  by_cases heq : a = b
  · exact .inl ⟨heq, by simp [compareFlags, clearedFlags, heq]⟩
  · have hne : a.toNat ≠ b.toNat := fun h => heq (BitVec.eq_of_toNat_eq h)
    obtain hlt | hgt := Nat.lt_or_gt_of_ne hne
    · exact .inr (.inl ⟨hlt, by simp [compareFlags, clearedFlags, heq, hlt]⟩)
    · exact .inr (.inr ⟨hgt, by simp [compareFlags, clearedFlags, heq, Nat.not_lt_of_gt hgt]⟩)

/-- R146: equality and the two strict orders exclude each other, so each flag tells its own relation. -/
theorem compareFlags_iff (a b : Byte) :
    ((compareFlags a b).e = true ↔ a = b) ∧ ((compareFlags a b).l = true ↔ a.toNat < b.toNat) ∧
      ((compareFlags a b).g = true ↔ b.toNat < a.toNat) := by
  obtain ⟨rfl, hf⟩ | ⟨hlt, hf⟩ | ⟨hgt, hf⟩ := compareFlags_cases a b
  · simp [hf]
  · have hne : a ≠ b := fun h => absurd (congrArg BitVec.toNat h) (Nat.ne_of_lt hlt)
    simp [hf, hne, hlt, Nat.le_of_lt hlt]
  · have hne : a ≠ b := fun h => absurd (congrArg BitVec.toNat h) (Nat.ne_of_gt hgt)
    simp [hf, hne, hgt, Nat.le_of_lt hgt]

/-- R34: `run()` goes through the clear port. -/
theorem State.run_flags {s t : State} (h : s.run = some t) : t.flags = clearedFlags := by
  unfold State.run at h
  split at h
  · obtain rfl := Option.some.inj h
    rfl
  all_goals contradiction

/-- R81 and R89: after an instruction that sets the pc itself, the engine leaves the pc where the handler put it. -/
theorem State.advance_pc_of_setsPc (s : State) {t : OpcodeMap} (ht : t.Admissible) {m : Mnemonic} (hm : m.setsPc = true) :
    (s.advance (t.byteOf m)).pc = s.pc := by
  simp [State.advance_pc, ht.setsPc_byteOf, hm]

/-- R145: COMPARE goes through the write port, on the registers as they were before it. -/
theorem exec_compare_flags {s t : State} {i j : Fin 8} (h : exec (.compare (regByte i) (regByte j)) s = .next t) :
    t.flags = compareFlags (s.reg i) (s.reg j) := by
  obtain rfl := Host.Outcome.next.inj ((exec_compare i j s).symm.trans h)
  simp

/-- R146: JUMP_IF_EQUAL goes through the read port of E. -/
theorem exec_jumpIfEqual_pc {s t : State} {i : Fin 8} (hadm : s.cfg.opcodes.Admissible)
    (h : exec (.jumpIfEqual (regByte i)) s = .next t) :
    t.pc = if s.flags.e = true then (s.reg i).toNat else s.pc + 2 := by
  obtain rfl := Host.Outcome.next.inj ((exec_jumpIfEqual i s).symm.trans h)
  exact State.advance_pc_of_setsPc _ hadm (m := .jumpIfEqual) rfl

/-- R146: JUMP_IF_NOT_EQUAL goes through the same port. -/
theorem exec_jumpIfNotEqual_pc {s t : State} {i : Fin 8} (hadm : s.cfg.opcodes.Admissible)
    (h : exec (.jumpIfNotEqual (regByte i)) s = .next t) :
    t.pc = if s.flags.e = false then (s.reg i).toNat else s.pc + 2 := by
  obtain rfl := Host.Outcome.next.inj ((exec_jumpIfNotEqual i s).symm.trans h)
  rw [State.advance_pc_of_setsPc _ hadm (m := .jumpIfNotEqual) rfl, State.setPc_pc]
  cases s.flags.e <;> rfl

/-- Settles O15: the three outcomes of the write port exclude each other, COMPARE and the conditional jumps go through the
flags' ports, and `run()` through the clear port. -/
theorem flagPortsAreTotalAndExclusive : Obligations.FlagPortsAreTotalAndExclusive := by
  refine ⟨fun a b => ?_, fun _ _ _ _ => exec_compare_flags, fun _ _ => State.run_flags,
    fun _ _ _ hadm => ⟨exec_jumpIfEqual_pc hadm, exec_jumpIfNotEqual_pc hadm⟩⟩
  obtain ⟨he, hl, hg⟩ := compareFlags_iff a b
  exact ⟨he, hl, hg, (compareFlags_cases a b).imp And.right (Or.imp And.right And.right)⟩

end Sys2Proof.Machine
end

section
/-! The decoder and the encoder are inverse to each other (30_encoding.md sections 1 to 4). -/

namespace Sys2Proof

/-- R72 and R87: the opcode's own bits take exactly the operand bytes the encoder wrote, whatever follows them. -/
theorem takeOperands_encoded {t : OpcodeMap} (ht : t.Admissible) (i : Instr) (rest : List Byte) :
    takeOperands (operandCount (t.byteOf i.mnemonic)) 1 (i.operands ++ rest) = .ok (i.operands, rest) := by
  rw [ht.operandCount_byteOf, ← i.operands_length]
  exact takeOperands_append i.operands 1 rest

/-- Settles O2: the opcode is found again since keys are distinct, its bits count the operand bytes, and the operand bytes
assemble to the instruction they came from. -/
theorem decodeOfEncodeIsTheInstruction : Obligations.DecodeOfEncodeIsTheInstruction := by
  intro t ht i rest
  have hlookup : t.lookup (t.byteOf i.mnemonic) = some i.mnemonic := ht.lookup_byteOf _
  simp only [encodeWith, List.cons_append, decodeWith, hlookup, takeOperands_encoded ht i rest, Instr.assemble_operands]

/-- Settles O3: of the decoder's outcomes only the last answers an instruction, and there the bytes are its own. -/
theorem encodeOfDecodeIsTheBytes : Obligations.EncodeOfDecodeIsTheBytes := by
  intro t bytes i rest hd
  obtain ⟨-, he⟩ | ⟨op, tail, rfl, ⟨-, he⟩ | ⟨m, hl, ⟨-, he⟩ | ⟨-, he⟩ | ⟨i', rest', hm, rfl, he⟩⟩⟩ :=
    decodeWith_cases t bytes
  case inr.inr.inr.inr =>
    obtain ⟨rfl, rfl⟩ : i = i' ∧ rest = rest' := by simpa [he, eq_comm] using hd
    rw [encodeWith, hm, OpcodeMap.lookup_some hl, List.cons_append]
  all_goals
    rw [he] at hd
    cases hd

/-- R77: a byte that is no key of the table of R80 is an illegal opcode, whatever follows it. -/
theorem decode_illegal {op : Byte} (h : OpcodeMap.ls8.lookup op = none) (tail : List Byte) :
    decode (op :: tail) = .error (.unknownOpcode op) :=
  Machine.decodeWith_unregistered (OpcodeMap.lookup_eq_none.mp h) tail

/-- Settles O1: the twelve words are the encodings of their instructions under R80's map, and the five bytes no keys of it. -/
theorem writtenOutWordsDecode : Obligations.WrittenOutWordsDecode := by
  have word (i : Instr) : decode (encode i ++ []) = .ok (i, []) :=
    decodeOfEncodeIsTheInstruction _ OpcodeMap.ls8_admissible i []
  exact ⟨word .halt, word .ret, word (.push 2), word (.pop 4), word (.printReg 7), word (.call 3), word (.jump 2),
    word (.jumpIfEqual 2), word (.jumpIfNotEqual 2), word (.loadImmediate 0 9), word (.multiply 0 1), word (.compare 3 4),
    decode_illegal (by decide) _, decode_illegal (by decide) _, decode_illegal (by decide) _, decode_illegal (by decide) _,
    decode_illegal (by decide) _⟩

end Sys2Proof
end

section
/-! Fetching the instruction at pc (30_encoding.md sections 3 and 5). -/

namespace Sys2Proof

/-- R74: the longest formats have two operands. -/
theorem Mnemonic.arity_le_two (m : Mnemonic) : m.arity ≤ 2 := by cases m <;> decide

end Sys2Proof

namespace Sys2Proof.Machine

/-- R88: the bytes of an instruction that stands at pc are the first bytes of the fetch window. -/
theorem State.InstructionAt.encode_prefix {s : State} {i : Instr} (h : s.InstructionAt i) :
    encodeWith s.cfg.opcodes i <+: s.fetchWindow := by
  have hlen : (encodeWith s.cfg.opcodes i).length ≤ 3 := by
    have := i.mnemonic.arity_le_two
    simp only [encodeWith, List.length_cons, Instr.operands_length]
    omega
  rw [List.prefix_iff_getElem?]
  intro k hk
  obtain ⟨hin, hbyte⟩ := h k hk
  have hk4 : k < 4 := by omega
  rw [State.fetchWindow, Memory.window_getElem?, if_pos ⟨hk4, hin⟩, hbyte]

/-- R81 and R88: the engine fetches the instruction that stands at pc. -/
theorem State.InstructionAt.fetch_eq {s : State} {i : Instr} (hadm : s.cfg.opcodes.Admissible) (h : s.InstructionAt i) :
    s.fetch = .ok i := by
  obtain ⟨rest, hrest⟩ := h.encode_prefix
  exact State.fetch_ok.mpr ⟨rest, by rw [← hrest]; exact decodeOfEncodeIsTheInstruction _ hadm i rest⟩

/-- R88: with the pc past memory there is no opcode byte. -/
theorem State.fetch_of_pc_outside {s : State} (hpc : memSize ≤ s.pc) : s.fetch = .error (.missing 0) := by
  have hwindow : s.fetchWindow = [] := by simp [State.fetchWindow, Memory.window, hpc]
  rw [State.fetch_error, hwindow]
  rfl

/-- R90 step 3: an instruction cut off by the end of memory lacks the byte that would stand at address 256. -/
theorem State.fetch_of_operand_outside {s : State} (hadm : s.cfg.opcodes.Admissible) (hpc : s.pc < memSize) {m : Mnemonic}
    (hop : Memory.get s.mem s.pc = s.cfg.opcodes.byteOf m) (hend : memSize ≤ s.pc + m.arity) :
    s.fetch = .error (.missing (memSize - s.pc)) := by
  have harity := m.arity_le_two
  have hlen : (Memory.window s.mem (s.pc + 1) 3).length = memSize - s.pc - 1 := by
    rw [Memory.window_length]
    omega
  have hshort : (Memory.window s.mem (s.pc + 1) 3).length < m.arity := by omega
  have hfirst : 1 + (Memory.window s.mem (s.pc + 1) 3).length = memSize - s.pc := by omega
  rw [State.fetch_error, State.fetchWindow_cons hpc, hop]
  simp only [decodeWith, hadm.lookup_byteOf, hadm.operandCount_byteOf, takeOperands_short hshort, hfirst]

/-- R81 (a): of an admissible map the missing byte is the opcode or one of at most two operands. -/
theorem State.fetch_missing_le_two {s : State} (hadm : s.cfg.opcodes.Admissible) {k : Nat}
    (h : s.fetch = .error (.missing k)) : k ≤ 2 := by
  have hd := State.fetch_error.mp h
  obtain ⟨-, he⟩ | ⟨op, tail, -, ⟨-, he⟩ | ⟨m, hl, ⟨hlt, he⟩ | ⟨-, he⟩ | ⟨_, _, -, -, he⟩⟩⟩ :=
    decodeWith_cases s.cfg.opcodes s.fetchWindow
  all_goals
    rw [he] at hd
    simp only [reduceCtorEq, Except.error.injEq, DecodeError.missing.injEq] at hd
  · omega
  · have harity := m.arity_le_two
    rw [← OpcodeMap.lookup_some hl, hadm.operandCount_byteOf] at hlt
    omega

/-- What `TakesFault` reads of a state that took a fault. -/
theorem takesFault_of_takeFault {s : State} {o : Host.Outcome State Fault Refusal} {kind : FaultKind} {info : Nat}
    (h : o = .next (s.takeFault ⟨kind, info⟩)) : TakesFault s o kind info :=
  ⟨_, h, s.takeFault_engine _, s.takeFault_out _⟩

/-- R252: a step whose opcode fetch leaves memory. -/
theorem step_of_pc_outside {s : State} (hrun : s.engine = .running) (hpc : memSize ≤ s.pc) :
    TakesFault s (step s) .memoryOutOfRange s.pc :=
  takesFault_of_takeFault (step_of_fetch_error hrun (State.fetch_of_pc_outside hpc))

/-- R252: a step whose operand fetch leaves memory. -/
theorem operandFetchFaults (m : Mnemonic) : OperandFetchFaults m := by
  intro s hrun hadm hpc hop hend
  apply takesFault_of_takeFault
  rw [step_of_fetch_error hrun (State.fetch_of_operand_outside hadm hpc hop hend), State.fetchFailed,
    Nat.add_sub_cancel' (Nat.le_of_lt hpc)]

/-- Settles O4: the fetch answers what the window decodes to. -/
theorem stepRunsTheDecodedInstruction : Obligations.StepRunsTheDecodedInstruction :=
  fun _ _ rest hrun hd => step_of_fetch_ok hrun (State.fetch_ok.mpr ⟨rest, hd⟩)

/-- Settles O5: the window begins with the instruction's encoding, which decodes to it whatever follows. -/
theorem stepRunsTheInstructionInMemory : Obligations.StepRunsTheInstructionInMemory :=
  fun _ _ hrun hadm hat => step_of_fetch_ok hrun (hat.fetch_eq hadm)

/-- Settles O6: of a fetch's outcomes only a layout mismatch has no next state, and R81 excludes it. -/
theorem runningMachineAlwaysSteps : Obligations.RunningMachineAlwaysSteps := by
  intro s hrun hadm
  cases hf : s.fetch with
  | ok i =>
    rw [step_of_fetch_ok hrun hf]
    exact exec_next i s
  | error e =>
    rw [step_of_fetch_error hrun hf]
    cases e with
    | missing k => exact ⟨_, rfl⟩
    | unknownOpcode op => exact ⟨_, rfl⟩
    | layoutMismatch op => exact absurd hf (State.fetch_ne_layout hadm op)

end Sys2Proof.Machine
end

section
/-! The faults an instruction's own checks raise (60_exceptions.md section 1). -/

namespace Sys2Proof.Machine

/-! ### The check behind each kind -/

section Kinds
variable {i : Instr} {s : State} {r : Raised} (h : RaisesBecause i s r)
include h

/-- R252 and R255: neither a bounds fault nor an ALU fault comes from a check that follows the fetch. -/
theorem RaisesBecause.kind_ne : r.kind ≠ .memoryOutOfRange ∧ r.kind ≠ .unsupportedAluOperation := by
  obtain ⟨hk, -⟩ | ⟨hk, -⟩ | ⟨hk, -⟩ | ⟨hk, -⟩ := h <;> simp [hk]

theorem RaisesBecause.of_registerOutOfRange (hk : r.kind = .registerOutOfRange) :
    ∃ b ∈ i.registerOperands, 8 ≤ b.toNat ∧ r.info = b.toNat := by
  simpa [RaisesBecause, hk] using h

theorem RaisesBecause.of_returnAddressOverflow (hk : r.kind = .returnAddressOverflow) :
    (∃ j, i = .call (regByte j)) ∧ memSize ≤ s.pc + 2 ∧ r.info = s.pc + 2 := by
  simpa [RaisesBecause, hk] using h

theorem RaisesBecause.of_stackOverflow (hk : r.kind = .stackOverflow) :
    (∃ j, i = .push (regByte j) ∨ i = .call (regByte j)) ∧ s.cfg.strictStack = true ∧ s.reg SP = 0 ∧ r.info = 0 := by
  simpa [RaisesBecause, hk] using h

theorem RaisesBecause.of_stackUnderflow (hk : r.kind = .stackUnderflow) :
    ((∃ j, i = .pop (regByte j)) ∨ i = .ret) ∧ s.cfg.strictStack = true ∧ s.cfg.spTop.toNat ≤ (s.reg SP).toNat ∧
      r.info = (s.reg SP).toNat := by
  simpa [RaisesBecause, hk] using h

end Kinds

/-! ### The obligations -/

/-- R51: the bounds check at either end of the memory interface. -/
theorem State.memAccess_outside (s : State) {a : Nat} (ha : memSize ≤ a) :
    s.memRead a = raise .memoryOutOfRange a ∧ ∀ v, s.memWrite a v = raise .memoryOutOfRange a := by
  simp [State.memRead, State.memWrite, Nat.not_lt.mpr ha]

/-- Settles O7: the memory interface checks its bounds; the two fetches name the first byte that is not there; and no check
an instruction makes after its fetch is a bounds check. -/
theorem accessOutsideMemoryFaults : Obligations.AccessOutsideMemoryFaults := by
  refine ⟨fun s _ => s.memAccess_outside, fun _ => step_of_pc_outside, operandFetchFaults, fun i s t r hrun he hf hk => ?_⟩
  obtain ⟨q, hq, rfl, -⟩ := exec_faulted hrun he hf
  exact hq.kind_ne.1 hk

/-- Settles O9: each handler checks its register operands first, in order; and a well-formed instruction has no operand
that fails the check. -/
theorem illegalRegisterOperandFaults : Obligations.IllegalRegisterOperandFaults := by
  refine ⟨fun a s h => ?_, fun i s t r hwf hrun he hf hk => ?_⟩
  · exact ⟨takesFault_of_takeFault (exec_printReg_illegal h s),
      fun imm => takesFault_of_takeFault (exec_loadImmediate_illegal h s imm),
      takesFault_of_takeFault (exec_push_illegal h s), takesFault_of_takeFault (exec_pop_illegal h s),
      takesFault_of_takeFault (exec_call_illegal h s), takesFault_of_takeFault (exec_jump_illegal h s),
      takesFault_of_takeFault (exec_jumpIfEqual_illegal h s), takesFault_of_takeFault (exec_jumpIfNotEqual_illegal h s),
      fun b => takesFault_of_takeFault (exec_multiply_illegal h s b),
      fun b => takesFault_of_takeFault (exec_compare_illegal h s b),
      fun i => takesFault_of_takeFault (exec_multiply_illegal_second h s i),
      fun i => takesFault_of_takeFault (exec_compare_illegal_second h s i)⟩
  · obtain ⟨q, hq, rfl, -⟩ := exec_faulted hrun he hf
    obtain ⟨b, hb, hillegal, -⟩ := hq.of_registerOutOfRange hk
    exact absurd (legal_of_wellFormed hwf hb) (Nat.not_lt.mpr hillegal)

/-- Settles O21: the overflow check is PUSH's and CALL's alone; without STRICT_STACK it passes and the decrement wraps. -/
theorem strictPushAndCallOverflow : Obligations.StrictPushAndCallOverflow := by
  refine ⟨fun s i hstrict hsp => ?_, fun i s t r hrun he hf hk => ?_, fun s i hstrict hsp => ?_⟩
  · exact ⟨takesFault_of_takeFault (exec_push_overflow i hstrict hsp),
      fun hret => takesFault_of_takeFault (exec_call_overflow i hret hstrict hsp)⟩
  · obtain ⟨q, hq, rfl, -⟩ := exec_faulted hrun he hf
    obtain ⟨hi, hstrict, hsp, -⟩ := hq.of_stackOverflow hk
    exact ⟨hstrict, hsp, hi⟩
  · have hpass : s.cfg.strictStack = true → s.reg SP ≠ 0 := by simp [hstrict]
    exact ⟨⟨_, exec_push i hpass, by simp, by simp [hsp]⟩, fun hret => ⟨_, exec_call i hret hpass, by simp, by simp [hsp]⟩⟩

/-- Settles O22: the underflow check is POP's and RETURN's alone; without STRICT_STACK it passes, and POP r7 counts the
loaded value up since its increment comes last. -/
theorem strictPopAndReturnUnderflow : Obligations.StrictPopAndReturnUnderflow := by
  refine ⟨fun s hstrict hsp => ?_, fun i s t r hrun he hf hk => ?_, fun s hadm hstrict => ?_⟩
  · exact ⟨fun i => takesFault_of_takeFault (exec_pop_underflow i hstrict hsp),
      takesFault_of_takeFault (exec_ret_underflow hstrict hsp)⟩
  · obtain ⟨q, hq, rfl, -⟩ := exec_faulted hrun he hf
    obtain ⟨hi, hstrict, hsp, -⟩ := hq.of_stackUnderflow hk
    exact ⟨hstrict, hsp, hi.symm⟩
  · have hpass : s.cfg.strictStack = true → (s.reg SP).toNat < s.cfg.spTop.toNat := by simp [hstrict]
    refine ⟨fun i => ⟨_, exec_pop i hpass, by simp, ?_⟩, _, exec_ret hpass, by simp, ?_⟩
    · by_cases hi : i = SP <;> simp [State.incSp_reg, hi]
    · exact State.advance_pc_of_setsPc _ hadm (m := .ret) rfl

/-- Settles O23: the return-address check is CALL's alone and comes before the stack check; 254 + 2 fits no cell. -/
theorem callReturnAddressOverflows : Obligations.CallReturnAddressOverflows := by
  refine ⟨fun s i hret => takesFault_of_takeFault (exec_call_returnAddress i hret), fun s i hrun hadm hpc hat => ?_,
    fun i s t r hrun he hf hk => ?_⟩
  · have hret : memSize ≤ s.pc + 2 := by simp [hpc, memSize]
    have hfault := exec_call_returnAddress i hret
    rw [← step_of_fetch_ok hrun (hat.fetch_eq hadm), hpc] at hfault
    exact takesFault_of_takeFault hfault
  · obtain ⟨q, hq, rfl, -⟩ := exec_faulted hrun he hf
    obtain ⟨hi, hret, -⟩ := hq.of_returnAddressOverflow hk
    exact ⟨hret, hi⟩

/-- Settles O24: a step's fault is of the fetch or of one of the four checks, none of them the ALU's. -/
theorem unsupportedAluOperationIsUnreachable : Obligations.UnsupportedAluOperationIsUnreachable := by
  refine ⟨fun _ _ _ => rfl, fun s t r hstep hf hk => ?_⟩
  obtain ⟨hrun, ⟨i, -, he⟩ | ⟨_, -, rfl⟩ | ⟨_, -, rfl⟩⟩ := step_cases hstep
  · obtain ⟨q, hq, rfl, -⟩ := exec_faulted hrun he hf
    exact hq.kind_ne.2 hk
  all_goals
    rw [State.takeFault_engine, Engine.faulted.injEq] at hf
    subst hf
    cases hk

/-- Settles O25: a fault of the fetch or of a check is taken from the old state, with the info that check names. -/
theorem faultEntryRecordsCauseAndNothingElse : Obligations.FaultEntryRecordsCauseAndNothingElse := by
  intro s t r hadm hstep hf
  obtain ⟨hrun, ⟨i, hfetch, he⟩ | ⟨k, hfetch, rfl⟩ | ⟨op, hfetch, rfl⟩⟩ := step_cases hstep
  · obtain ⟨q, hq, rfl, rfl⟩ := exec_faulted hrun he hf
    refine ⟨rfl, rfl, ?_⟩
    obtain ⟨hk, hb⟩ | ⟨hk, -, -, hinfo⟩ | ⟨hk, -, -, hsp, hinfo⟩ | ⟨hk, -, -, -, hinfo⟩ := hq
    · simpa only [hk] using ⟨i, hfetch, hb⟩
    · simpa only [hk] using hinfo
    · simp [hk, hinfo, hsp]
    · simpa only [hk] using hinfo
  all_goals
    rw [State.takeFault_engine, Engine.faulted.injEq] at hf
    subst hf
  · obtain ⟨-, hout⟩ := State.fetch_missing_spec hfetch
    exact ⟨rfl, rfl, hout, k, State.fetch_missing_le_two hadm hfetch, rfl⟩
  · obtain ⟨-, hbyte, -⟩ := State.fetch_unknown_spec hfetch
    exact ⟨rfl, rfl, by rw [hbyte]⟩

end Sys2Proof.Machine
end

section
/-! What an instruction may write, and what it leaves alone (10_state.md sections 1 to 5, 20_memory.md section 1). -/

namespace Sys2Proof.Machine

theorem State.decSp_reg_ne (s : State) {j : Fin 8} (h : j ≠ SP) : s.decSp.reg j = s.reg j := by
  rw [State.decSp_reg, if_neg h]

theorem State.incSp_reg_ne (s : State) {j : Fin 8} (h : j ≠ SP) : s.incSp.reg j = s.reg j := by
  rw [State.incSp_reg, if_neg h]

section Writes
variable {i : Instr} {s s' : State} (h : Handles i s s')
include h

theorem Handles.cfg : s'.cfg = s.cfg := by
  cases i <;> simp only [Handles] at h
  case halt => subst h; rfl
  all_goals
    obtain ⟨_, _, _, _, rfl⟩ := h
    rfl

/-- R145: COMPARE writes the flags. -/
theorem Handles.flags : s'.flags = s.flags ∨
    ∃ j k, i = .compare (regByte j) (regByte k) ∧ s'.flags = compareFlags (s.reg j) (s.reg k) := by
  cases i <;> simp only [Handles] at h
  case compare a b =>
    obtain ⟨j, k, rfl, rfl, rfl⟩ := h
    exact .inr ⟨j, k, rfl, rfl⟩
  case halt => subst h; exact .inl rfl
  all_goals
    obtain ⟨_, _, _, _, rfl⟩ := h
    exact .inl rfl

/-- R110: PRINT_REG writes the output channel. -/
theorem Handles.out : s'.out = s.out ∨
    ∃ j, i = .printReg (regByte j) ∧ s'.out = s.out ++ [decimalLine (s.reg j)] := by
  cases i <;> simp only [Handles] at h
  case printReg a =>
    obtain ⟨j, rfl, rfl⟩ := h
    exact .inr ⟨j, rfl, rfl⟩
  case halt => subst h; exact .inl rfl
  all_goals
    obtain ⟨_, _, _, _, rfl⟩ := h
    exact .inl rfl

/-- R170: PUSH and CALL write the cell below SP. -/
theorem Handles.mem : s'.mem = s.mem ∨
    ∃ j v, (i = .push (regByte j) ∨ i = .call (regByte j)) ∧ s'.mem = Memory.set s.mem (s.reg SP - 1).toNat v := by
  cases i <;> simp only [Handles] at h
  case push a =>
    obtain ⟨j, rfl, -, rfl⟩ := h
    exact .inr ⟨j, _, .inl rfl, rfl⟩
  case call a =>
    obtain ⟨j, rfl, -, -, rfl⟩ := h
    exact .inr ⟨j, _, .inr rfl, rfl⟩
  case halt => subst h; exact .inl rfl
  all_goals
    obtain ⟨_, _, _, _, rfl⟩ := h
    exact .inl rfl

/-- The register table of 10_state.md section 1. -/
theorem Handles.reg {k : Fin 8} (hk : s'.reg k ≠ s.reg k) :
    (∃ imm, i = .loadImmediate (regByte k) imm) ∨ (∃ b, i = .multiply (regByte k) b) ∨ i = .pop (regByte k) ∨
      (k = SP ∧ (i = .ret ∨ ∃ j, i = .push (regByte j) ∨ i = .pop (regByte j) ∨ i = .call (regByte j))) := by
  cases i <;> simp only [Handles] at h
  case loadImmediate a imm =>
    obtain ⟨j, rfl, rfl⟩ := h
    obtain rfl : j = k := by_contra fun hne => hk (s.setReg_reg_ne _ hne)
    exact .inl ⟨imm, rfl⟩
  case multiply a b =>
    obtain ⟨j, _, rfl, -, rfl⟩ := h
    obtain rfl : j = k := by_contra fun hne => hk (s.setReg_reg_ne _ hne)
    exact .inr (.inl ⟨b, rfl⟩)
  case push a =>
    obtain ⟨j, rfl, -, rfl⟩ := h
    have hsp : k = SP := by_contra fun hne => hk (s.decSp_reg_ne hne)
    exact .inr (.inr (.inr ⟨hsp, .inr ⟨j, .inl rfl⟩⟩))
  case pop a =>
    obtain ⟨j, rfl, -, rfl⟩ := h
    by_cases hsp : k = SP
    · exact .inr (.inr (.inr ⟨hsp, .inr ⟨j, .inr (.inl rfl)⟩⟩))
    · rw [State.incSp_reg_ne _ hsp] at hk
      obtain rfl : j = k := by_contra fun hne => hk (s.setReg_reg_ne _ hne)
      exact .inr (.inr (.inl rfl))
  case call a =>
    obtain ⟨j, rfl, -, -, rfl⟩ := h
    have hsp : k = SP := by_contra fun hne => hk (s.decSp_reg_ne hne)
    exact .inr (.inr (.inr ⟨hsp, .inr ⟨j, .inr (.inr rfl)⟩⟩))
  case ret =>
    obtain ⟨-, rfl⟩ := h
    have hsp : k = SP := by_contra fun hne => hk (s.incSp_reg_ne hne)
    exact .inr (.inr (.inr ⟨hsp, .inl rfl⟩))
  case halt => subst h; exact absurd rfl hk
  all_goals
    obtain ⟨_, _, _, _, rfl⟩ := h
    exact absurd rfl hk

/-- R81 (b): the handlers of the other seven instructions leave the pc to the engine. -/
theorem Handles.pc_of_sequential (hm : i.mnemonic.setsPc = false) : s'.pc = s.pc := by
  cases i <;> simp only [Handles] at h <;> simp only [Instr.mnemonic, Mnemonic.setsPc, Bool.true_eq_false] at hm
  case halt => subst h; rfl
  all_goals
    obtain ⟨_, _, _, _, rfl⟩ := h
    rfl

/-- R81 (b): the five handlers that set the pc send it to a register's value, a cell's, or past their own two bytes. -/
theorem Handles.pc_le_of_setsPc (hm : i.mnemonic.setsPc = true) (hpc : s.pc + i.mnemonic.arity < memSize) :
    s'.pc ≤ memSize := by
  have hbyte (b : Byte) : b.toNat ≤ memSize := Nat.le_of_lt (byte_lt_memSize b)
  cases i <;> simp only [Handles] at h <;> simp only [Instr.mnemonic, Mnemonic.setsPc, Bool.false_eq_true] at hm
  case call a =>
    obtain ⟨j, -, -, -, rfl⟩ := h
    exact hbyte _
  case ret =>
    obtain ⟨-, rfl⟩ := h
    exact hbyte _
  case jump a =>
    obtain ⟨j, -, rfl⟩ := h
    exact hbyte _
  case jumpIfEqual a =>
    obtain ⟨j, -, rfl⟩ := h
    rw [State.setPc_pc]
    split
    · exact hbyte _
    · exact hpc
  case jumpIfNotEqual a =>
    obtain ⟨j, -, rfl⟩ := h
    rw [State.setPc_pc]
    split
    · exact hpc
    · exact hbyte _

end Writes

/-- What a step that answers a next state made of the old one: it took a fault, or the fetched instruction acted and the
engine advanced. -/
theorem step_takesFault_or_handles {s t : State} (h : step s = .next t) :
    (∃ r, t = s.takeFault r) ∨
    ∃ i s', s.fetch = .ok i ∧ Handles i s s' ∧ t = s'.advance (s.cfg.opcodes.byteOf i.mnemonic) := by
  obtain ⟨-, ⟨i, hfetch, he⟩ | ⟨k, -, rfl⟩ | ⟨op, -, rfl⟩⟩ := step_cases h
  · obtain ⟨r, -, hr⟩ | ⟨s', hs, hr⟩ := exec_cases i s
    · exact .inl ⟨r, Host.Outcome.next.inj (he.symm.trans hr)⟩
    · exact .inr ⟨i, s', hfetch, hs, Host.Outcome.next.inj (he.symm.trans hr)⟩
  · exact .inl ⟨_, rfl⟩
  · exact .inl ⟨_, rfl⟩

/-- Settles O27: only HALT's handler enters Halted, and only taking a fault enters Faulted. -/
theorem onlyHaltAndFaultsLeaveRunning : Obligations.OnlyHaltAndFaultsLeaveRunning := by
  intro s t _ hstep
  have hrun : s.engine = .running := step_next_running hstep
  have hhalt : s.fetch = .ok .halt → t.engine = .halted := by
    intro hfetch
    rw [step_of_fetch_ok hrun hfetch, exec_halt] at hstep
    obtain rfl := Host.Outcome.next.inj hstep
    simp
  obtain ⟨r, rfl⟩ | ⟨i, s', hfetch, hs, rfl⟩ := step_takesFault_or_handles hstep
  · exact ⟨⟨fun h => by simp at h, hhalt⟩, .inr (.inr ⟨_, s.takeFault_engine r⟩)⟩
  · rw [State.advance_engine] at hhalt ⊢
    obtain heng | ⟨rfl, heng⟩ := hs.engine
    · rw [heng, hrun] at hhalt ⊢
      exact ⟨⟨nofun, hhalt⟩, .inl rfl⟩
    · exact ⟨⟨fun _ => hfetch, hhalt⟩, .inr (.inl heng)⟩

/-- Settles O28: a fault keeps the flags, and so does every handler but COMPARE's. -/
theorem onlyCompareWritesFlags : Obligations.OnlyCompareWritesFlags := by
  intro s t hstep hne
  obtain ⟨r, rfl⟩ | ⟨i, s', hfetch, hs, rfl⟩ := step_takesFault_or_handles hstep
  · exact absurd (s.takeFault_flags r) hne
  · rw [State.advance_flags] at hne
    obtain hsame | ⟨j, k, rfl, -⟩ := hs.flags
    · exact absurd hsame hne
    · exact ⟨j, k, hfetch⟩

/-- Settles O29: a fault keeps memory, and so does every handler but PUSH's and CALL's, which write one cell. -/
theorem onlyPushAndCallWriteMemory : Obligations.OnlyPushAndCallWriteMemory := by
  intro s t hstep a hne
  obtain ⟨r, rfl⟩ | ⟨i, s', hfetch, hs, rfl⟩ := step_takesFault_or_handles hstep
  · exact absurd rfl hne
  · rw [State.advance_mem] at hne
    obtain hsame | ⟨j, v, hi, hset⟩ := hs.mem
    · exact absurd (by rw [hsame]) hne
    · rw [hset] at hne
      have ha : a = (s.reg SP - 1).toNat := by_contra fun h => hne (Memory.get_set_ne _ _ h)
      exact ⟨ha, j, by simpa [hfetch] using hi⟩

/-- Settles O30: a fault keeps the registers, and each handler writes those of its row. -/
theorem onlyNamedRegistersAreWritten : Obligations.OnlyNamedRegistersAreWritten := by
  intro s t hstep j hne
  obtain ⟨r, rfl⟩ | ⟨i, s', hfetch, hs, rfl⟩ := step_takesFault_or_handles hstep
  · exact absurd (s.takeFault_reg r j) hne
  · rw [State.advance_reg] at hne
    exact ⟨i, hfetch, hs.reg hne⟩

/-- Settles O33: neither a fault nor a handler writes a parameter. -/
theorem configurationNeverChanges : Obligations.ConfigurationNeverChanges := by
  intro s t hstep
  obtain ⟨r, rfl⟩ | ⟨i, s', -, hs, rfl⟩ := step_takesFault_or_handles hstep
  · exact s.takeFault_cfg r
  · rw [State.advance_cfg, hs.cfg]

end Sys2Proof.Machine
end

section
/-! The program counter (10_state.md section 2, 30_encoding.md section 5). -/

namespace Sys2Proof

/-- R81 (b): the five instructions of the table that set the pc. -/
theorem Mnemonic.setsPc_iff (m : Mnemonic) :
    m.setsPc = true ↔ m = .call ∨ m = .ret ∨ m = .jump ∨ m = .jumpIfEqual ∨ m = .jumpIfNotEqual := by
  cases m <;> decide

end Sys2Proof

namespace Sys2Proof.Machine

/-- R25 to R27: the pc after an instruction that acts and leaves it to the engine. -/
theorem Handles.advance_pc_of_sequential {i : Instr} {s s' : State} (h : Handles i s s') (hadm : s.cfg.opcodes.Admissible)
    (hm : i.mnemonic.setsPc = false) :
    (s'.advance (s.cfg.opcodes.byteOf i.mnemonic)).pc = s.pc + (i.mnemonic.arity + 1) := by
  rw [State.advance_pc_of_sequential _ hadm hm, h.pc_of_sequential hm]

/-- R25: an instruction that lies in memory leaves the pc in [0, 256]. -/
theorem Handles.advance_pc_le {i : Instr} {s s' : State} (h : Handles i s s') (hadm : s.cfg.opcodes.Admissible)
    (hpc : s.pc + i.mnemonic.arity < memSize) : (s'.advance (s.cfg.opcodes.byteOf i.mnemonic)).pc ≤ memSize := by
  cases hm : i.mnemonic.setsPc with
  | false =>
    rw [h.advance_pc_of_sequential hadm hm]
    exact hpc
  | true =>
    rw [State.advance_pc_of_setsPc _ hadm hm]
    exact h.pc_le_of_setsPc hm hpc

/-- What `run()` answers, and from where. -/
theorem State.run_eq_some {s t : State} : s.run = some t ↔
    s.engine = .ready ∧ t = { s with x := launchRegs s.cfg, pc := 0, flags := clearedFlags, engine := .running, out := [] } := by
  cases he : s.engine <;> simp [State.run, he, eq_comm]

/-- Settles O34: the advance moves the pc past an instruction that lies in memory, and R81 (b) says for which; `run()` and
the fetch do the rest. -/
theorem pcIsWrittenByAdvanceHandlersAndRun : Obligations.PcIsWrittenByAdvanceHandlersAndRun := by
  refine ⟨fun s t i hadm hfetch hstep hnofault hbit => ?_, fun t m hadm => ?_, fun s t hrun => ?_,
    fun s i _ hadm hat => hat.fetch_eq hadm, fun s hrun hpc => step_of_pc_outside hrun hpc⟩
  · obtain ⟨r, rfl⟩ | ⟨i', s', hfetch', hs, rfl⟩ := step_takesFault_or_handles hstep
    · exact absurd (s.takeFault_engine r) (hnofault _)
    · obtain rfl : i = i' := Except.ok.inj (hfetch.symm.trans hfetch')
      obtain ⟨hin, -⟩ := State.fetch_ok_spec hfetch
      rw [hadm.setsPc_byteOf] at hbit
      rw [hadm.instrSize_byteOf]
      exact ⟨hs.advance_pc_of_sequential hadm hbit, hs.advance_pc_le hadm hin⟩
  · rw [hadm.setsPc_byteOf]
    exact m.setsPc_iff
  · obtain ⟨-, rfl⟩ := State.run_eq_some.mp hrun
    rfl

end Sys2Proof.Machine
end

section
/-! The machine invariant (10_state.md sections 2 to 4 and 6). -/

namespace Sys2Proof.Machine

/-- R31: the write port leaves exactly one flag set. -/
theorem compareFlags_legal (a b : Byte) : (compareFlags a b).legal = true := by
  obtain ⟨-, hf⟩ | ⟨-, hf⟩ | ⟨-, hf⟩ := compareFlags_cases a b <;> rw [hf] <;> decide

/-- R37: a fault changes the engine state alone, and its record names the pc. -/
theorem State.Inv.takeFault {s : State} (h : s.Inv) (r : Raised) : (s.takeFault r).Inv where
  mem_wf := h.mem_wf
  pc_le := h.pc_le
  flags_legal := h.flags_legal
  opcodes_ok := h.opcodes_ok
  fault_pc := by
    intro q hq
    rw [State.takeFault_engine, Engine.faulted.injEq] at hq
    rw [← hq, State.takeFault_pc]

/-- An instruction that lies in memory and acts in a running machine. -/
theorem State.Inv.advance {s s' : State} {i : Instr} (h : s.Inv) (hrun : s.engine = .running)
    (hpc : s.pc + i.mnemonic.arity < memSize) (hs : Handles i s s') :
    (s'.advance (s.cfg.opcodes.byteOf i.mnemonic)).Inv where
  mem_wf := by
    rw [State.advance_mem]
    obtain hsame | ⟨_, v, -, hset⟩ := hs.mem
    · rw [hsame]; exact h.mem_wf
    · rw [hset]; exact Memory.wf_set h.mem_wf (byte_lt_memSize _) v
  pc_le := hs.advance_pc_le h.opcodes_ok hpc
  flags_legal := by
    rw [State.advance_flags]
    obtain hsame | ⟨_, _, -, hcmp⟩ := hs.flags
    · rw [hsame]; exact h.flags_legal
    · rw [hcmp]; exact compareFlags_legal _ _
  opcodes_ok := by
    rw [State.advance_cfg, hs.cfg]
    exact h.opcodes_ok
  fault_pc := by
    intro r hr
    rw [State.advance_engine] at hr
    obtain heng | ⟨-, heng⟩ := hs.engine
    · rw [heng, hrun] at hr
      cases hr
    · rw [heng] at hr
      cases hr

/-- Settles O35: by what a step makes of the state, a fault or an instruction that acts. -/
theorem everyStepKeepsTheInvariant : Obligations.EveryStepKeepsTheInvariant := by
  intro s t hinv hstep
  obtain ⟨r, rfl⟩ | ⟨i, s', hfetch, hs, rfl⟩ := step_takesFault_or_handles hstep
  · exact hinv.takeFault r
  · obtain ⟨hpc, -⟩ := State.fetch_ok_spec hfetch
    exact hinv.advance (step_next_running hstep) hpc hs

/-- R34: `run()` enters the invariant from any memory in canonical form, whatever the registers, pc and flags held. -/
theorem State.Inv.of_run {s t : State} (h : s.run = some t) (hmem : Memory.wf s.mem = true) (hadm : s.cfg.opcodes.Admissible) :
    t.Inv := by
  obtain ⟨-, rfl⟩ := State.run_eq_some.mp h
  exact ⟨hmem, Nat.zero_le _, rfl, hadm, nofun⟩

/-- Settles O36: reset is Running with cleared memory, pc and flags, and R80's map meets R81. -/
theorem invariantHoldsAtReset : Obligations.InvariantHoldsAtReset :=
  ⟨Memory.wf_reset, Nat.zero_le _, rfl, OpcodeMap.ls8_admissible, nofun⟩

/-- R297: what a `boot` that succeeds went through. -/
theorem State.boot_eq_ok {s t : State} {image : List Byte} (h : s.boot image = .ok t) :
    (s.setMem (Memory.place s.mem 0 image)).run = some t := by
  unfold State.boot at h
  split at h
  case h_2 => cases h
  case h_1 loaded hload =>
    split at h
    case h_2 => cases h
    case h_1 started hrun =>
      obtain rfl := Except.ok.inj h
      unfold State.load at hload
      split at hload
      case h_2 | h_3 | h_4 => cases hload
      case h_1 =>
        split at hload
        · obtain rfl := Except.ok.inj hload
          exact hrun
        · cases hload

/-- A machine inside the invariant steps inside it, or has ended under a name that says so. -/
theorem State.Inv.step_cases {s : State} (h : s.Inv) :
    (∃ t, step s = .next t ∧ t.Inv) ∨ ∃ r, step s = .fault r ∧ r ≠ .inadmissibleOpcodeMap := by
  cases he : s.engine with
  | running =>
    obtain ⟨t, ht⟩ := runningMachineAlwaysSteps s he h.opcodes_ok
    exact .inl ⟨t, ht, everyStepKeepsTheInvariant s t h ht⟩
  | ready => exact .inr ⟨.notStarted, by simp [step, he], nofun⟩
  | halted => exact .inr ⟨.alreadyHalted, step_of_halted he, nofun⟩
  | faulted r => exact .inr ⟨.alreadyFaulted, by simp [step, he], nofun⟩

theorem run_succ_of_next {s t : State} (h : step s = .next t) (k : Nat) :
    Host.Core.run Sys2Proof.core (k + 1) s = Host.Core.run Sys2Proof.core k t := by
  have h' : Sys2Proof.core.step s = .next t := h
  simp only [Host.Core.run, h']

theorem run_succ_of_fault {s : State} {r : Fault} (h : step s = .fault r) (k : Nat) :
    Host.Core.run Sys2Proof.core (k + 1) s = .fault r := by
  have h' : Sys2Proof.core.step s = .fault r := h
  simp only [Host.Core.run, h']

/-- A run from inside the invariant reaches a state inside it, or stops because the machine had ended. -/
theorem State.Inv.run_cases (k : Nat) : ∀ {s : State}, s.Inv →
    (∃ t : State, Host.Core.run Sys2Proof.core k s = .next t ∧ t.Inv) ∨
    ∃ r, Host.Core.run Sys2Proof.core k s = .fault r ∧ r ≠ Fault.inadmissibleOpcodeMap := by
  induction k with
  | zero => exact fun {s} h => .inl ⟨s, rfl, h⟩
  | succ k ih =>
    intro s h
    obtain ⟨t, hstep, ht⟩ | ⟨r, hstep, hr⟩ := h.step_cases
    · rw [run_succ_of_next hstep]
      exact ih ht
    · exact .inr ⟨r, run_succ_of_fault hstep k, hr⟩

/-- Settles O37: `run()` enters the invariant, and a run from inside it stays there or has ended. -/
theorem everyLoadedRunKeepsTheInvariant : Obligations.EveryLoadedRunKeepsTheInvariant := by
  intro cfg x pc flags image s hadm hboot k
  have hmem : Memory.wf (Memory.place [] 0 image) = true := Memory.wf_place image 0 rfl
  have hinv : s.Inv := State.Inv.of_run (State.boot_eq_ok hboot) hmem hadm
  obtain ⟨t, hrun, ht⟩ | ⟨r, hrun, hr⟩ := State.Inv.run_cases k hinv
  · rw [hrun]
    exact ⟨fun t' h => Host.Outcome.next.inj h ▸ ht, nofun, nofun⟩
  · rw [hrun]
    exact ⟨nofun, nofun, fun h => hr (Host.Outcome.fault.inj h)⟩

/-- Settles O26: each of the three engine states answers its own name at the first step. -/
theorem endedRunsStayEnded : Obligations.EndedRunsStayEnded :=
  fun s k => ⟨fun he => run_succ_of_fault (by simp [step, he]) k, fun he => run_succ_of_fault (step_of_halted he) k,
    fun r he => run_succ_of_fault (by simp [step, he]) k⟩

end Sys2Proof.Machine
end

section
/-! The parts of the state that no instruction reads: the output channel, L and G (10_state.md sections 3 and 5). -/

namespace Sys2Proof.Machine

/-- A relation between states that no operation of the machine tells apart: the states agree on all that is read, and writing
the same thing to both keeps them related. -/
structure Indistinguishable (R : State → State → Prop) : Prop where
  reg       : ∀ {s s'}, R s s' → ∀ i, s'.reg i = s.reg i
  pc        : ∀ {s s'}, R s s' → s'.pc = s.pc
  equal     : ∀ {s s'}, R s s' → s'.flags.e = s.flags.e
  mem       : ∀ {s s'}, R s s' → s'.mem = s.mem
  engine    : ∀ {s s'}, R s s' → s'.engine = s.engine
  cfg       : ∀ {s s'}, R s s' → s'.cfg = s.cfg
  setReg    : ∀ {s s'}, R s s' → ∀ i v, R (s.setReg i v) (s'.setReg i v)
  setPc     : ∀ {s s'}, R s s' → ∀ p, R (s.setPc p) (s'.setPc p)
  setFlags  : ∀ {s s'}, R s s' → ∀ f, R (s.setFlags f) (s'.setFlags f)
  setMem    : ∀ {s s'}, R s s' → ∀ m, R (s.setMem m) (s'.setMem m)
  setEngine : ∀ {s s'}, R s s' → ∀ e, R (s.setEngine e) (s'.setEngine e)
  emit      : ∀ {s s'}, R s s' → ∀ l, R (s.emit l) (s'.emit l)

/-- Two handlers' results: related states, or one and the same fault. -/
inductive ResultsRelated (R : State → State → Prop) : Except Raised State → Except Raised State → Prop where
  | ok {s s' : State} (h : R s s') : ResultsRelated R (.ok s) (.ok s')
  | error (e : Raised) : ResultsRelated R (.error e) (.error e)

/-- Two outcomes: related next states, or one and the same stop. -/
inductive OutcomesRelated (R : State → State → Prop) :
    Host.Outcome State Fault Refusal → Host.Outcome State Fault Refusal → Prop where
  | next {s s' : State} (h : R s s') : OutcomesRelated R (.next s) (.next s')
  | fault (r : Fault) : OutcomesRelated R (.fault r) (.fault r)
  | refused (r : Refusal) : OutcomesRelated R (.refused r) (.refused r)

/-- A check or a read that answers the same in both machines, and what follows it. -/
theorem ResultsRelated.bind {α : Type} {R : State → State → Prop} {x x' : Except Raised α} {f f' : α → Except Raised State}
    (hx : x' = x) (hf : ∀ v, ResultsRelated R (f v) (f' v)) : ResultsRelated R (x >>= f) (x' >>= f') := by
  subst hx
  cases x' with
  | ok v => exact hf v
  | error e => exact .error e

namespace Indistinguishable

variable {R : State → State → Prop} (hR : Indistinguishable R) {s s' : State} (h : R s s')
include hR h

theorem fetch : s'.fetch = s.fetch := by
  simp only [State.fetch, State.fetchWindow, hR.mem h, hR.pc h, hR.cfg h]

theorem takeFault (r : Raised) : R (s.takeFault r) (s'.takeFault r) := by
  simp only [State.takeFault, hR.pc h]
  exact hR.setEngine h _

theorem advance (op : Byte) : R (s.advance op) (s'.advance op) := by
  unfold State.advance
  split
  · exact h
  · rw [hR.pc h]
    exact hR.setPc h _

theorem decSp : R s.decSp s'.decSp := by
  simp only [State.decSp, hR.reg h]
  exact hR.setReg h _ _

theorem incSp : R s.incSp s'.incSp := by
  simp only [State.incSp, hR.reg h]
  exact hR.setReg h _ _

theorem checkOverflow : s'.checkOverflow = s.checkOverflow := by
  simp only [State.checkOverflow, hR.cfg h, hR.reg h]

theorem checkUnderflow : s'.checkUnderflow = s.checkUnderflow := by
  simp only [State.checkUnderflow, hR.cfg h, hR.reg h]

theorem stackTop : s'.stackTop = s.stackTop := by
  rw [State.stackTop_eq, State.stackTop_eq, hR.mem h, hR.reg h]

/-- The states after a push of one value. -/
theorem push (v : Byte) : R (s.decSp.setMem (Memory.set s.mem (s.reg SP - 1).toNat v))
    (s'.decSp.setMem (Memory.set s'.mem (s'.reg SP - 1).toNat v)) := by
  rw [hR.mem h, hR.reg h]
  exact hR.setMem (hR.decSp h) _

theorem complete (m : Mnemonic) {r r' : Except Raised State} (hr : ResultsRelated R r r') :
    OutcomesRelated R (complete m s r) (complete m s' r') := by
  cases hr with
  | ok hs =>
    rw [complete_ok, complete_ok, hR.cfg h]
    exact .next (hR.advance hs _)
  | error e => exact .next (hR.takeFault h e)

theorem exec (i : Instr) : OutcomesRelated R (exec i s) (exec i s') := by
  cases i with
  | printReg a =>
    refine hR.complete h _ (.bind rfl fun i => .ok ?_)
    rw [hR.reg h]
    exact hR.emit h _
  | loadImmediate a imm => exact hR.complete h _ (.bind rfl fun i => .ok (hR.setReg h i imm))
  | halt => exact hR.complete h _ (.ok (hR.setEngine h _))
  | multiply a b =>
    refine hR.complete h _ (.bind rfl fun i => .bind rfl fun j => .bind ?_ fun v => .ok (hR.setReg h i v))
    rw [hR.reg h, hR.reg h]
  | push a =>
    refine hR.complete h _ (.bind rfl fun i => .bind (hR.checkOverflow h) fun _ => ?_)
    rw [State.pushValue_eq, State.pushValue_eq, hR.reg (hR.decSp h)]
    exact .ok (hR.push h _)
  | pop a =>
    exact hR.complete h _ (.bind rfl fun i => .bind (hR.checkUnderflow h) fun _ => .bind (hR.stackTop h) fun v =>
      .ok (hR.incSp (hR.setReg h i v)))
  | call a =>
    refine hR.complete h _ (.bind rfl fun i => .bind (by rw [hR.pc h]) fun _ => .bind (hR.checkOverflow h) fun _ => ?_)
    rw [State.pushValue_eq, State.pushValue_eq, hR.pc h]
    refine .ok ?_
    rw [hR.reg (hR.push h _)]
    exact hR.setPc (hR.push h _) _
  | ret =>
    exact hR.complete h _ (.bind (hR.checkUnderflow h) fun _ => .bind (hR.stackTop h) fun v =>
      .ok (hR.setPc (hR.incSp h) v.toNat))
  | compare a b =>
    refine hR.complete h _ (.bind rfl fun i => .bind rfl fun j => .ok ?_)
    rw [hR.reg h, hR.reg h]
    exact hR.setFlags h _
  | jump a =>
    refine hR.complete h _ (.bind rfl fun i => .ok ?_)
    rw [hR.reg h]
    exact hR.setPc h _
  | jumpIfEqual a =>
    refine hR.complete h _ (.bind rfl fun i => .ok ?_)
    rw [hR.equal h, hR.reg h, hR.pc h]
    exact hR.setPc h _
  | jumpIfNotEqual a =>
    refine hR.complete h _ (.bind rfl fun i => .ok ?_)
    rw [hR.equal h, hR.reg h, hR.pc h]
    exact hR.setPc h _

/-- Related machines step to related outcomes. -/
theorem step : OutcomesRelated R (step s) (step s') := by
  cases he : s.engine with
  | running =>
    have he' := (hR.engine h).trans he
    cases hf : s.fetch with
    | ok i =>
      rw [step_of_fetch_ok he hf, step_of_fetch_ok he' ((hR.fetch h).trans hf)]
      exact hR.exec h i
    | error e =>
      rw [step_of_fetch_error he hf, step_of_fetch_error he' ((hR.fetch h).trans hf)]
      cases e with
      | missing k =>
        simp only [State.fetchFailed, hR.pc h]
        exact .next (hR.takeFault h _)
      | unknownOpcode op => exact .next (hR.takeFault h _)
      | layoutMismatch op => exact .fault _
  | ready => simpa [Machine.step, hR.engine h, he] using .fault _
  | halted => simpa [Machine.step, hR.engine h, he] using .fault _
  | faulted r => simpa [Machine.step, hR.engine h, he] using .fault _

end Indistinguishable

/-! ### The output channel -/

/-- The state with lines already on the output channel. -/
def State.withOutputBefore (before : List String) (s : State) : State := { s with out := before ++ s.out }

/-- R40: no operation reads the channel, and `emit` appends at its other end. -/
theorem indistinguishable_withOutputBefore (before : List String) :
    Indistinguishable fun s s' => s' = s.withOutputBefore before where
  reg := by rintro s _ rfl i; rfl
  pc := by rintro s _ rfl; rfl
  equal := by rintro s _ rfl; rfl
  mem := by rintro s _ rfl; rfl
  engine := by rintro s _ rfl; rfl
  cfg := by rintro s _ rfl; rfl
  setReg := by rintro s _ rfl i v; rfl
  setPc := by rintro s _ rfl p; rfl
  setFlags := by rintro s _ rfl f; rfl
  setMem := by rintro s _ rfl m; rfl
  setEngine := by rintro s _ rfl e; rfl
  emit := by rintro s _ rfl l; simp [State.withOutputBefore, State.emit]

/-- Settles O31: only PRINT_REG's handler writes the channel, `run()` clears it, and no operation reads it. -/
theorem outputChannelIsAppendOnlyAndUnread : Obligations.OutputChannelIsAppendOnlyAndUnread := by
  refine ⟨fun s t hrun => ?_, fun s t hstep => ?_, fun s before => ?_⟩
  · obtain ⟨-, rfl⟩ := State.run_eq_some.mp hrun
    rfl
  · obtain ⟨r, rfl⟩ | ⟨i, s', hfetch, hs, rfl⟩ := step_takesFault_or_handles hstep
    · exact .inl (s.takeFault_out r)
    · rw [State.advance_out]
      exact hs.out.imp_right fun ⟨j, hi, hout⟩ => ⟨j, hi ▸ hfetch, hout⟩
  · have hsim := (indistinguishable_withOutputBefore before).step (s := s) rfl
    change step (s.withOutputBefore before) = viewOutcome (State.withOutputBefore before) (step s)
    generalize step s = o, step (s.withOutputBefore before) = o' at hsim
    cases hsim with
    | next h => rw [h]; rfl
    | fault r => rfl
    | refused r => rfl

/-! ### L and G -/

/-- R30: no operation reads L or G, and the write port overwrites both. -/
theorem indistinguishable_withoutLessGreater :
    Indistinguishable fun s s' => s.withoutLessGreater = s'.withoutLessGreater where
  reg {s s'} h i := show s'.withoutLessGreater.reg i = s.withoutLessGreater.reg i by rw [h]
  pc {s s'} h := show s'.withoutLessGreater.pc = s.withoutLessGreater.pc by rw [h]
  equal {s s'} h := show s'.withoutLessGreater.flags.e = s.withoutLessGreater.flags.e by rw [h]
  mem {s s'} h := show s'.withoutLessGreater.mem = s.withoutLessGreater.mem by rw [h]
  engine {s s'} h := show s'.withoutLessGreater.engine = s.withoutLessGreater.engine by rw [h]
  cfg {s s'} h := show s'.withoutLessGreater.cfg = s.withoutLessGreater.cfg by rw [h]
  setReg := fun h i v => congrArg (State.setReg · i v) h
  setPc := fun h p => congrArg (State.setPc · p) h
  setFlags {s s'} h f := by
    change s.withoutLessGreater.setFlags { e := f.e, l := false, g := false } =
      s'.withoutLessGreater.setFlags { e := f.e, l := false, g := false }
    rw [h]
  setMem := fun h m => congrArg (State.setMem · m) h
  setEngine := fun h e => congrArg (State.setEngine · e) h
  emit := fun h l => congrArg (State.emit · l) h

/-- Settles O32: the steps are related by the view in L and G, so their outcomes have one view. -/
theorem lessAndGreaterAreNeverRead : Obligations.LessAndGreaterAreNeverRead := by
  intro s s' h
  have hsim := indistinguishable_withoutLessGreater.step h
  generalize step s = o, step s' = o' at hsim
  cases hsim with
  | next h => exact congrArg Host.Outcome.next h
  | fault r => rfl
  | refused r => rfl

end Sys2Proof.Machine
end

section
/-! What each instruction does on legal operands, and its frame (40_register_io_halt.md to 43_control_transfer.md). -/

namespace Sys2Proof.Machine

/-- Settles O10: the handler writes the channel alone, and the advance the pc alone. -/
theorem printRegAppendsDecimalLine : Obligations.PrintRegAppendsDecimalLine := by
  intro s i hadm
  have hpc := (s.emit (decimalLine (s.reg i))).advance_pc_of_sequential hadm (m := .printReg) rfl
  exact ⟨_, exec_printReg i s, by simp [decimalLine], hpc, by simp, by simp, by simp, by simp, by simp⟩

/-- Settles O11: the handler writes one register, and the advance the pc alone. -/
theorem loadImmediateSetsRegister : Obligations.LoadImmediateSetsRegister := by
  intro s i imm hadm
  have hpc := (s.setReg i imm).advance_pc_of_sequential hadm (m := .loadImmediate) rfl
  refine ⟨_, exec_loadImmediate i imm s, by simp, hpc, fun j hj => ?_, by simp, by simp, by simp, by simp, by simp⟩
  rw [State.advance_reg, State.setReg_reg_ne _ _ hj.symm]

/-- Settles O13: the ALU reads both registers before the one write. -/
theorem multiplyStoresLowByteOfProduct : Obligations.MultiplyStoresLowByteOfProduct := by
  intro s i j hadm
  have hpc := (s.setReg i (BitVec.ofNat 8 ((s.reg i).toNat * (s.reg j).toNat))).advance_pc_of_sequential hadm
    (m := .multiply) rfl
  refine ⟨_, exec_multiply i j s, ?_, hpc, fun k hk => ?_, by simp, by simp, by simp, by simp, by simp⟩
  · rw [State.advance_reg, State.setReg_reg_same, BitVec.toNat_ofNat]
  · rw [State.advance_reg, State.setReg_reg_ne _ _ hk.symm]

/-- Settles O14: by what each flag of the write port stands for. -/
theorem compareSetsFlagsByUnsignedOrder : Obligations.CompareSetsFlagsByUnsignedOrder := by
  intro s i j hadm
  obtain ⟨he, hl, hg⟩ := compareFlags_iff (s.reg i) (s.reg j)
  have hpc := (s.setFlags (compareFlags (s.reg i) (s.reg j))).advance_pc_of_sequential hadm (m := .compare) rfl
  refine ⟨_, exec_compare i j s, ?_, ?_, ?_, hpc, by simp, by simp, by simp, by simp, by simp⟩
  all_goals rw [State.advance_flags, State.setFlags_flags, Bool.eq_iff_iff, decide_eq_true_iff]
  · exact he
  · exact hl
  · exact hg

/-- Settles O16: the decrement comes before the register is read, so PUSH r7 stores the new SP. -/
theorem pushStoresBelowStackPointer : Obligations.PushStoresBelowStackPointer := by
  intro s i hadm hpass
  have hpc := (s.decSp.setMem (Memory.set s.mem (s.reg SP - 1).toNat (s.decSp.reg i))).advance_pc_of_sequential hadm
    (m := .push) rfl
  refine ⟨_, exec_push i hpass, by simp, ?_, hpc, fun j hj => ?_, by simp, fun a ha => ?_, by simp, by simp, by simp⟩
  · simp [State.decSp_reg]
  · simp [State.decSp_reg_ne s hj]
  · rw [State.advance_mem, State.setMem_mem, Memory.get_set_ne _ _ ha]

/-- Settles O17: the increment comes after the register is written, so POP r7 counts the loaded value up. -/
theorem popLoadsFromStackPointer : Obligations.PopLoadsFromStackPointer := by
  intro s i hadm hpass
  have hpc := (s.setReg i (Memory.get s.mem (s.reg SP).toNat)).incSp.advance_pc_of_sequential hadm (m := .pop) rfl
  refine ⟨_, exec_pop i hpass, ?_, fun hi => ?_, hpc, fun j hj hsp => ?_, by simp, by simp, by simp, by simp, by simp⟩
  · simp [State.setReg_reg]
  · simp [State.incSp_reg_ne _ hi]
  · simp [State.incSp_reg_ne _ hsp, State.setReg_reg_ne _ _ hj.symm]

/-- R201: a return address that passes CALL's check fits a cell. -/
theorem toNat_returnAddress {ret : Nat} (h : ret < memSize) : (BitVec.ofNat 8 ret).toNat = ret := by
  rw [BitVec.toNat_ofNat]
  exact Nat.mod_eq_of_lt h

/-- Settles O18: the handler sets the pc, and the engine's advance leaves it there. -/
theorem callPushesReturnAddressAndJumps : Obligations.CallPushesReturnAddressAndJumps := by
  intro s i hadm hret hpass
  refine ⟨_, exec_call i hret hpass, by simp, ?_, ?_, fun j hj => ?_, by simp, fun a ha => ?_, by simp, by simp, by simp⟩
  · rw [State.advance_mem, State.setPc_mem, State.setMem_mem, Memory.get_set_same, toNat_returnAddress hret]
  · rw [State.advance_pc_of_setsPc _ hadm (m := .call) rfl, State.setPc_pc, State.decSp_reg]
  · simp [State.decSp_reg_ne s hj]
  · rw [State.advance_mem, State.setPc_mem, State.setMem_mem, Memory.get_set_ne _ _ ha]

/-- Settles O19: the handler sets the pc to the byte at the old SP, and the engine's advance leaves it there. -/
theorem returnGoesToPoppedAddress : Obligations.ReturnGoesToPoppedAddress := by
  intro s hadm hpass
  have hpc := (s.incSp.setPc (Memory.get s.mem (s.reg SP).toNat).toNat).advance_pc_of_setsPc hadm (m := .ret) rfl
  refine ⟨_, exec_ret hpass, hpc, by simp, fun j hj => ?_, by simp, by simp, by simp, by simp, by simp⟩
  simp [State.incSp_reg_ne s hj]

/-- The frame of the three jumps: setting the pc and the engine's advance leave everything else alone. -/
theorem State.setPc_advance_frame (s : State) (p : Nat) (op : Byte) :
    (∀ j, ((s.setPc p).advance op).reg j = s.reg j) ∧ ((s.setPc p).advance op).flags = s.flags ∧
      (∀ a, Memory.get ((s.setPc p).advance op).mem a = Memory.get s.mem a) ∧ ((s.setPc p).advance op).out = s.out ∧
      ((s.setPc p).advance op).engine = s.engine ∧ ((s.setPc p).advance op).cfg = s.cfg := by
  simp

/-- Settles O20: each handler chooses the pc by E alone, and the engine's advance leaves it there. -/
theorem jumpsSetOnlyThePc : Obligations.JumpsSetOnlyThePc := by
  intro s i hadm
  refine ⟨_, _, _, exec_jump i s, exec_jumpIfEqual i s, exec_jumpIfNotEqual i s, ?_, fun he => ?_, fun he => ?_, ?_⟩
  · exact State.advance_pc_of_setsPc _ hadm (m := .jump) rfl
  · have hu := exec_jumpIfEqual_pc hadm (exec_jumpIfEqual i s)
    have hv := exec_jumpIfNotEqual_pc hadm (exec_jumpIfNotEqual i s)
    exact ⟨by rw [hu, if_pos he], by rw [hv, he]; rfl⟩
  · have hu := exec_jumpIfEqual_pc hadm (exec_jumpIfEqual i s)
    have hv := exec_jumpIfNotEqual_pc hadm (exec_jumpIfNotEqual i s)
    exact ⟨by rw [hu, he]; rfl, by rw [hv, if_pos he]⟩
  · rintro w (rfl | rfl | rfl) <;> exact s.setPc_advance_frame _ _

end Sys2Proof.Machine
end

section
/-! Laws over two instructions (42_stack.md, 43_control_transfer.md). -/

namespace Sys2Proof.Machine

theorem regByte_injective {i j : Fin 8} (h : regByte i = regByte j) : i = j :=
  Fin.ext (by rw [← regByte_toNat i, ← regByte_toNat j, h])

/-- An instruction after which the machine still runs has taken no fault. -/
theorem exec_handles {i : Instr} {s t : State} (h : exec i s = .next t) (ht : t.engine = .running) :
    ∃ s', Handles i s s' ∧ t = s'.advance (s.cfg.opcodes.byteOf i.mnemonic) := by
  obtain ⟨r, -, he⟩ | ⟨s', hs, he⟩ := exec_cases i s
  all_goals obtain rfl := Host.Outcome.next.inj (h.symm.trans he)
  · cases ht
  · exact ⟨s', hs, rfl⟩

/-- Settles O38: the pop reads the cell the push wrote, and the increment undoes the decrement; for r7 the cell holds the
decremented SP, which the increment restores. -/
theorem pushThenPopRestoresRegisters : Obligations.PushThenPopRestoresRegisters := by
  intro s u t i _ hpush hu hpop ht j
  obtain ⟨s', ⟨i₁, hi₁, -, rfl⟩, rfl⟩ := exec_handles hpush hu
  obtain ⟨u', ⟨i₂, hi₂, -, rfl⟩, rfl⟩ := exec_handles hpop ht
  obtain rfl := regByte_injective hi₁
  obtain rfl := regByte_injective hi₂
  by_cases hj : j = SP
  · subst hj
    by_cases hi : i = SP <;> simp [State.setReg_reg, hi]
  · by_cases hi : i = j
    · subst hi
      simp [State.incSp_reg_ne _ hj, State.decSp_reg_ne _ hj]
    · simp [State.incSp_reg_ne _ hj, State.decSp_reg_ne _ hj, State.setReg_reg_ne _ _ hi]

/-- Settles O39: the byte RETURN pops is the return address CALL pushed, which fits the cell. -/
theorem callThenReturnResumesAfterCall : Obligations.CallThenReturnResumesAfterCall := by
  intro s u v t i hadm _ hcall hu hcfg _ hsp htop hret ht
  obtain ⟨s', ⟨i₁, hi₁, hfit, -, rfl⟩, rfl⟩ := exec_handles hcall hu
  obtain ⟨v', ⟨-, rfl⟩, rfl⟩ := exec_handles hret ht
  have hadmv : v.cfg.opcodes.Admissible := by simpa [hcfg] using hadm
  constructor
  · rw [State.advance_pc_of_setsPc _ hadmv (m := Instr.ret.mnemonic) rfl, State.setPc_pc, htop, State.advance_mem,
      State.advance_reg, State.setPc_mem, State.setPc_reg, State.setMem_mem, State.setMem_reg, State.decSp_reg_sp,
      Memory.get_set_same, toNat_returnAddress hfit]
  · simp [hsp]

end Sys2Proof.Machine
end

section
/-! Memory (20_memory.md section 1). -/

namespace Sys2Proof.Machine

/-- Settles O40: inside the bounds by the laws of `Memory.set`, outside them by the bounds check. -/
theorem memoryInterfaceReadsAndWrites : Obligations.MemoryInterfaceReadsAndWrites := by
  refine fun s => ⟨fun a ha => ⟨⟨_, s.memRead_ok ha⟩, fun v => ⟨_, s.memWrite_ok ha v, ?_, fun b hb => ?_, rfl⟩⟩,
    fun _ => s.memAccess_outside⟩
  · rw [State.memRead_ok _ ha, State.setMem_mem, Memory.get_set_same]
  · simp only [State.memRead, State.setMem_mem, Memory.get_set_ne _ _ hb]

theorem Memory.get_cons_same (k : Nat) (v : Byte) (m : Memory) : Memory.get ((k, v) :: m) k = v := by simp [Memory.get]

theorem Memory.get_cons_ne {k a : Nat} (v : Byte) (m : Memory) (h : k ≠ a) : Memory.get ((k, v) :: m) a = Memory.get m a := by
  simp [Memory.get, h]

/-- The parts of the canonical form of a non-empty memory. -/
theorem Memory.wfFrom_cons {lo k : Nat} {v : Byte} {m : Memory} :
    Memory.wfFrom lo ((k, v) :: m) = true ↔ lo ≤ k ∧ k < memSize ∧ v ≠ Memory.blank ∧ Memory.wfFrom (k + 1) m = true := by
  simp [Memory.wfFrom, and_assoc]

/-- A cell that is listed does not read as one in a memory that lists only later cells. -/
theorem Memory.get_ne_of_wfFrom {lo lo' k : Nat} {v : Byte} {m m' : Memory} (h : Memory.wfFrom lo ((k, v) :: m) = true)
    (h' : Memory.wfFrom lo' m' = true) (hlt : k < lo') : Memory.get ((k, v) :: m) k ≠ Memory.get m' k := by
  obtain ⟨-, -, hv, -⟩ := Memory.wfFrom_cons.mp h
  rw [Memory.get_cons_same, Memory.get_of_wfFrom_lt h' hlt]
  exact hv

/-- Canonical memories that read alike list the same cells, the first of them by the least address that is not blank. -/
theorem Memory.ext_of_wfFrom : ∀ {m m' : Memory} {lo : Nat}, Memory.wfFrom lo m = true → Memory.wfFrom lo m' = true →
    (∀ a, a < memSize → Memory.get m a = Memory.get m' a) → m = m'
  | [], [], _, _, _, _ => rfl
  | [], (k, v) :: m', lo, _, h', heq => by
    obtain ⟨-, hk, -, -⟩ := Memory.wfFrom_cons.mp h'
    have hblank : Memory.wfFrom (k + 1) [] = true := rfl
    exact absurd (heq k hk).symm (Memory.get_ne_of_wfFrom h' hblank (Nat.lt_succ_self k))
  | (k, v) :: m, [], lo, h, _, heq => by
    obtain ⟨-, hk, -, -⟩ := Memory.wfFrom_cons.mp h
    have hblank : Memory.wfFrom (k + 1) [] = true := rfl
    exact absurd (heq k hk) (Memory.get_ne_of_wfFrom h hblank (Nat.lt_succ_self k))
  | (k, v) :: m, (k', v') :: m', lo, h, h', heq => by
    obtain ⟨-, hk, hv, hm⟩ := Memory.wfFrom_cons.mp h
    obtain ⟨-, hk', hv', hm'⟩ := Memory.wfFrom_cons.mp h'
    obtain hlt | rfl | hgt := Nat.lt_trichotomy k k'
    · have htail : Memory.wfFrom k' ((k', v') :: m') = true := Memory.wfFrom_cons.mpr ⟨Nat.le_refl _, hk', hv', hm'⟩
      exact absurd (heq k hk) (Memory.get_ne_of_wfFrom h htail hlt)
    · have hvalue : v = v' := by simpa [Memory.get_cons_same] using heq k hk
      have hrest : ∀ a, a < memSize → Memory.get m a = Memory.get m' a := by
        intro a ha
        by_cases hak : k = a
        · subst hak
          rw [Memory.get_of_wfFrom_lt hm (Nat.lt_succ_self k), Memory.get_of_wfFrom_lt hm' (Nat.lt_succ_self k)]
        · rw [← Memory.get_cons_ne v m hak, ← Memory.get_cons_ne v' m' hak]
          exact heq a ha
      rw [hvalue, Memory.ext_of_wfFrom hm hm' hrest]
    · have htail : Memory.wfFrom k ((k, v) :: m) = true := Memory.wfFrom_cons.mpr ⟨Nat.le_refl _, hk, hv, hm⟩
      exact absurd (heq k' hk').symm (Memory.get_ne_of_wfFrom h' htail hgt)

/-- Settles O41: the canonical form from address 0. -/
theorem canonicalMemoriesAreEqualData : Obligations.CanonicalMemoriesAreEqualData :=
  fun _ _ h h' heq => Memory.ext_of_wfFrom h h' heq

end Sys2Proof.Machine
end

section
/-! Launch, load and the exit status (10_state.md section 6, 70_reset_and_hazards.md, 60_exceptions.md section 5). -/

namespace Sys2Proof.Machine

/-- R34: R0 to R6 take REG_INIT. -/
theorem launchRegs_getElem (cfg : Config) : ∀ k (h : k < 7), (launchRegs cfg)[k] = cfg.regInit[k]
  | 0, _ | 1, _ | 2, _ | 3, _ | 4, _ | 5, _ | 6, _ => rfl

/-- Settles O42: `run()` writes the launch values field by field, and is defined in Ready alone. -/
theorem runSetsTheResetValues : Obligations.RunSetsTheResetValues := by
  refine fun s => ⟨fun hready => ⟨_, State.run_eq_some.mpr ⟨hready, rfl⟩, launchRegs_getElem s.cfg, rfl, rfl, rfl, rfl, rfl,
    rfl, rfl⟩, fun hne => ?_⟩
  rw [Option.eq_none_iff_forall_ne_some]
  exact fun t hrun => hne (State.run_eq_some.mp hrun).1

/-- A run of bytes that fits in memory is read back from the address it was stored at; past its end memory is unchanged. -/
theorem Memory.get_place (bs : List Byte) : ∀ (m : Memory) (a k : Nat), a + bs.length ≤ memSize →
    Memory.get (Memory.place m a bs) (a + k) = bs.getD k (Memory.get m (a + k)) := by
  induction bs with
  | nil => intro m a k _; rfl
  | cons b bs ih =>
    intro m a k hfit
    rw [List.length_cons] at hfit
    have ha : a < memSize := by omega
    rw [Memory.place, if_pos ha]
    cases k with
    | zero =>
      rw [Nat.add_zero a, Memory.get_place_lt bs _ _ _ (Nat.lt_succ_self a), Memory.get_set_same, List.getD_cons_zero]
    | succ k =>
      have hne : a + (k + 1) ≠ a := by omega
      have htail := ih (Memory.set m a b) (a + 1) k (by omega)
      rw [Nat.add_right_comm, Nat.add_assoc] at htail
      rw [htail, Memory.get_set_ne _ _ hne, List.getD_cons_succ]

/-- Settles O43: the image's bytes are placed over zeros. -/
theorem loadPlacesTheImageFromZero : Obligations.LoadPlacesTheImageFromZero := by
  refine fun cfg x pc flags image => ⟨fun hfit => ?_, fun hlong => ?_, rfl⟩
  · refine ⟨(State.constructed cfg x pc flags).setMem (Memory.place [] 0 image), if_pos hfit, rfl, fun a => ?_⟩
    have hget := Memory.get_place image [] 0 a (by rwa [Nat.zero_add])
    rwa [Nat.zero_add] at hget
  · exact if_neg (Nat.not_le.mpr hlong)

/-- R272: EXIT_CODE is neither a completion's status nor a load failure's. -/
theorem exitCodeOf_ne (kind : FaultKind) : exitCodeOf kind ≠ 0 ∧ exitCodeOf kind ≠ loadFailureStatus := by
  unfold exitCodeOf loadFailureStatus
  split <;> omega

/-- Settles O45: the status is read off the engine state, and EXIT_CODE leaves out the two other statuses. -/
theorem exitStatusSeparatesHaltFaultAndLoadFailure : Obligations.ExitStatusSeparatesHaltFaultAndLoadFailure := by
  refine fun s => ⟨fun he => ?_, fun r he => ⟨exitCodeOf r.kind, ?_, exitCodeOf_ne r.kind⟩, fun he => ?_, rfl⟩
  all_goals simp [State.exitStatus, he]

end Sys2Proof.Machine
end

section
/-! The program file format (70_reset_and_hazards.md R298). -/

namespace Sys2Proof.Machine

/-! ### Lines -/

/-- A text has a first line. -/
theorem splitLines_eq_cons : ∀ cs : List Char, ∃ l ls, splitLines cs = l :: ls
  | [] => ⟨[], [], rfl⟩
  | c :: cs => by
    obtain ⟨l, ls, h⟩ := splitLines_eq_cons cs
    by_cases hc : c = '\n'
    · exact ⟨[], l :: ls, by simp [splitLines, h, hc]⟩
    · exact ⟨c :: l, ls, by simp [splitLines, h, hc]⟩

/-- A text whose first line ends after `line`. -/
theorem splitLines_line {line : List Char} (h : ∀ c ∈ line, c ≠ '\n') (rest : List Char) :
    splitLines (line ++ '\n' :: rest) = line :: splitLines rest := by
  induction line with
  | nil =>
    obtain ⟨l, ls, hrest⟩ := splitLines_eq_cons rest
    simp [splitLines, hrest]
  | cons c line ih =>
    have hc : c ≠ '\n' := h c (by simp)
    have htail := ih fun d hd => h d (by simp [hd])
    simp [splitLines, htail, hc]

/-- A comment is ignored. -/
theorem stripComment_comment {code : List Char} (h : ∀ c ∈ code, c ≠ '#') (comment : List Char) :
    stripComment (code ++ '#' :: comment) = code := by
  have hcode : ∀ c ∈ code, (c != '#') = true := by simpa using h
  rw [stripComment, List.takeWhile_append_of_pos hcode, List.takeWhile_cons_of_neg (by decide), List.append_nil]

/-- The space before a comment is trimmed. -/
theorem trimLine_space {code : List Char} (h : ∀ c ∈ code, c.isWhitespace = false) : trimLine (code ++ [' ']) = code := by
  cases code with
  | nil => decide
  | cons c cs =>
    have hfront : (c :: cs ++ [' ']).dropWhile Char.isWhitespace = c :: cs ++ [' '] :=
      List.dropWhile_cons_of_neg (by simp [h c])
    have hback : (c :: cs).reverse.dropWhile Char.isWhitespace = (c :: cs).reverse :=
      List.dropWhile_eq_self_iff.mpr fun hlen => by
        rw [h _ (List.mem_reverse.mp (List.getElem_mem hlen))]
        decide
    rw [trimLine, hfront, List.reverse_append, List.reverse_singleton, List.singleton_append,
      List.dropWhile_cons_of_pos (by decide), hback, List.reverse_reverse]

/-! ### Literals -/

/-- The digits of the `k` low bits of a byte, most significant first (93_implementation_defined.md K6). -/
def lowDigits (b : Byte) : Nat → List Char
  | 0 => []
  | k + 1 => (if b.getLsbD k then '1' else '0') :: lowDigits b k

/-- The literal of a byte, as the program file writes it. -/
theorem map_getMsbD_eq_lowDigits (b : Byte) :
    (List.range 8).map (fun k => if b.getMsbD k then '1' else '0') = lowDigits b 8 := rfl

theorem lowDigits_length (b : Byte) : ∀ k, (lowDigits b k).length = k
  | 0 => rfl
  | k + 1 => congrArg Nat.succ (lowDigits_length b k)

theorem lowDigits_mem (b : Byte) : ∀ k, ∀ c ∈ lowDigits b k, c = '0' ∨ c = '1'
  | 0, _, h => by cases h
  | k + 1, c, h => by
    obtain rfl | h := List.mem_cons.mp h
    · split
      · exact .inr rfl
      · exact .inl rfl
    · exact lowDigits_mem b k c h

theorem binaryDigit_ite (bit : Bool) : binaryDigit (if bit then '1' else '0') = some bit := by cases bit <;> decide

/-- Reading bit `k` after the bits above it. -/
theorem shiftRight_double_add (b : Byte) (k : Nat) :
    b >>> (k + 1) + b >>> (k + 1) + (if b.getLsbD k then 1 else 0) = b >>> k := by
  have hhalf : (b >>> (k + 1)).toNat = (b >>> k).toNat / 2 := by
    rw [BitVec.toNat_ushiftRight, BitVec.toNat_ushiftRight, Nat.shiftRight_succ]
  have hbit : (if b.getLsbD k then (1 : Byte) else 0).toNat = (b >>> k).toNat % 2 := by
    rw [BitVec.toNat_ushiftRight, Nat.shiftRight_eq_div_pow, ← Nat.toNat_testBit, BitVec.getLsbD]
    cases b.toNat.testBit k <;> rfl
  have hlt : (b >>> k).toNat < 2 ^ 8 := (b >>> k).isLt
  apply BitVec.eq_of_toNat_eq
  rw [BitVec.toNat_add, BitVec.toNat_add, hhalf, hbit]
  omega

/-- The parser has read the bits from `k` on and reads the others. -/
theorem binaryDigits_lowDigits (b : Byte) : ∀ k, binaryDigits (lowDigits b k) (b >>> k) = some b
  | 0 => by simp [lowDigits, binaryDigits]
  | k + 1 => by
    simp only [lowDigits, binaryDigits, binaryDigit_ite, shiftRight_double_add]
    exact binaryDigits_lowDigits b k

/-- D25: a literal of eight digits parses to its byte. -/
theorem parseByte_lowDigits (b : Byte) : parseByte (lowDigits b 8) = some b := by
  have hnone : b >>> 8 = 0 := by ext i; simp
  rw [parseByte, if_pos (lowDigits_length b 8), ← hnone]
  exact binaryDigits_lowDigits b 8

/-! ### The file -/

/-- The line of a byte and a comment. -/
def literalLine (comment : List Char) (b : Byte) : List Char := lowDigits b 8 ++ ' ' :: '#' :: comment

/-- What the parser reads of that line. -/
theorem trimLine_literalLine (comment : List Char) (b : Byte) :
    trimLine (stripComment (literalLine comment b)) = lowDigits b 8 := by
  have hcode : ∀ c ∈ lowDigits b 8 ++ [' '], c ≠ '#' := by
    intro c hc
    obtain h | h := List.mem_append.mp hc
    · obtain rfl | rfl := lowDigits_mem b 8 c h <;> decide
    · rw [List.mem_singleton.mp h]
      decide
  have hdigits : ∀ c ∈ lowDigits b 8, c.isWhitespace = false := by
    intro c hc
    obtain rfl | rfl := lowDigits_mem b 8 c hc <;> decide
  rw [literalLine, List.append_cons, stripComment_comment hcode, trimLine_space hdigits]

theorem literalLine_no_newline {comment : List Char} (h : ∀ c ∈ comment, c ≠ '\n') (b : Byte) :
    ∀ c ∈ literalLine comment b, c ≠ '\n' := by
  intro c hc
  simp only [literalLine, List.mem_append, List.mem_cons] at hc
  obtain hc | rfl | rfl | hc := hc
  · obtain rfl | rfl := lowDigits_mem b 8 c hc <;> decide
  · decide
  · decide
  · exact h c hc

/-- R298: a literal line and the blank line after it give one byte. -/
theorem parseLines_literalLine (n : Nat) (comment : List Char) (b : Byte) {rest : List (List Char)} {bs : List Byte}
    (h : parseLines (n + 2) rest = .ok bs) : parseLines n (literalLine comment b :: [] :: rest) = .ok (b :: bs) := by
  have hblank : parseLines (n + 1) ([] :: rest) = .ok bs := h
  have hbyte := parseByte_lowDigits b
  rw [parseLines, trimLine_literalLine]
  obtain ⟨c, cs, hdigits⟩ := List.exists_cons_of_length_eq_add_one (lowDigits_length b 8)
  rw [hdigits] at hbyte ⊢
  simp only [hbyte, hblank]

theorem parseLines_program {comment : List Char} (h : ∀ c ∈ comment, c ≠ '\n') (image : List Byte) : ∀ n,
    parseLines n (splitLines (image.flatMap fun b => literalLine comment b ++ ['\n', '\n'])) = .ok image := by
  induction image with
  | nil => exact fun n => rfl
  | cons b image ih =>
    intro n
    simp only [List.flatMap_cons, List.append_assoc, List.cons_append, List.nil_append]
    rw [splitLines_line (literalLine_no_newline h b), ← List.nil_append ('\n' :: _), splitLines_line (by simp)]
    exact parseLines_literalLine n comment b (ih (n + 2))

/-- Settles O44: each byte's two lines give that byte, by induction over the image. -/
theorem programFileGivesItsBytes : Obligations.ProgramFileGivesItsBytes := by
  intro image comment h
  have htext (b : Byte) : (List.range 8).map (fun k => if b.getMsbD k then '1' else '0') ++ [' ', '#'] ++ comment ++
      ['\n', '\n'] = literalLine comment b ++ ['\n', '\n'] := by
    rw [map_getMsbD_eq_lowDigits, literalLine, List.append_assoc _ [' ', '#']]
    rfl
  simp only [htext]
  exact parseLines_program h image 1

end Sys2Proof.Machine
end
